-- ==== Sys2Proof/Word.lean ====
section
/-! DEFINITION. The bit-vector types the spec computes with (00_scope.md section 6, 10_state.md R6): bytes of a chunk,
16-bit register values, 32-bit command words, counters and TIME samples. All are unsigned and wrap modulo their width. -/

namespace Sys2Proof

/-- One byte of a chunk, an accumulator or a record: an unsigned value 0..255 (00_scope.md section 6). -/
abbrev Byte := BitVec 8

/-- A 16-bit value: the DATA and LEN fields of a command word, CC_MAXDELAY, SP_TCLEN, SP_ANCLEN. -/
abbrev Half := BitVec 16

/-- A 32-bit value: a command or response word, a counter, a TIME sample, SP_DL. -/
abbrev Word := BitVec 32

end Sys2Proof
end

