-- ==== Sys2Proof/Config.lean ====
section
/-! DEFINITION. What an implementation of the block fixes (00_scope.md section 5): the constants, and the two OPEN parameters
SP_DL_FN and SP_FLUSH_EMPTY as plain data, so that a machine with any value of them can be written down and run. -/

namespace Sys2Proof.Config

/-- MAX_CHUNK: the longest chunk of one command (00_scope.md R5, the range of the LEN field). -/
def maxChunk : Nat := 65535

/-- CC_BUF_CAP: the capacity of CC_ACC (10_state.md R13, 41_cctalk.md R76). -/
def ccBufCap : Nat := 260

/-- SP_HDR_LEN: the length of the Space Packet primary header (43_spacepacket.md R101). -/
def spHdrLen : Nat := 6

/-- SP_BODY_CAP: the capacity of SP_BACC (10_state.md R21, decision D26). -/
def spBodyCap : Nat := 65536

end Sys2Proof.Config

namespace Sys2Proof

/-- The six bytes of a Space Packet primary header, `hdr[0]` first (10_state.md R22). The block decodes no field of it but
through SP_DL_FN (43_spacepacket.md R103). -/
structure Header where
  b0 : Byte
  b1 : Byte
  b2 : Byte
  b3 : Byte
  b4 : Byte
  b5 : Byte
  deriving DecidableEq, Repr

/-- The OPEN parameter SP_FLUSH_EMPTY: whether SP_FLUSH with an empty residue emits a zero-length record
(00_scope.md section 5, 43_spacepacket.md R114). -/
inductive FlushEmpty where
  | emit
  | suppress
  deriving DecidableEq, Repr

/-- The two OPEN parameters (93_implementation_defined.md section 2). `dlTable` is SP_DL_FN as plain data: the headers on which it
differs from the default rule, each with its 32-bit result. A header has finitely many values, so every function of
43_spacepacket.md R102 is such a table; the empty table is the default (log 2). -/
structure Params where
  dlTable : List (Header × Word)
  flushEmpty : FlushEmpty
  deriving DecidableEq, Repr

/-- The defaults the spec states for both parameters (00_scope.md section 5). -/
def Params.default : Params := { dlTable := [], flushEmpty := .emit }

end Sys2Proof
end

