-- ==== Sys2Proof/Syntax.lean ====
section
/-! DEFINITION. The eleven commands of the block, one constructor per row of spec/opcode_table.json (30_encoding.md R49). A format C
command carries its chunk, since its data phase is part of the command (30_encoding.md R48). -/

namespace Sys2Proof

inductive Instr where
  /-- NOP, opcode 0x00, format N (44_control.md R117). -/
  | nop
  /-- RESET, opcode 0x01, format N (44_control.md R118). -/
  | reset
  /-- RDREG, opcode 0x02, format R with DATA = 0: the register address (44_control.md R119). -/
  | rdreg (reg : Byte)
  /-- WRREG, opcode 0x03, format R: the register address and the value (44_control.md R120). -/
  | wrreg (reg : Byte) (data : Half)
  /-- CC_FEED, opcode 0x10, format C: the chunk (41_cctalk.md R67). -/
  | ccFeed (chunk : List Byte)
  /-- CC_DISCARD, opcode 0x11, format N (41_cctalk.md R80). -/
  | ccDiscard
  /-- SLIP_ENC, opcode 0x20, format C: the payload (42_slip.md R83). -/
  | slipEnc (chunk : List Byte)
  /-- SLIP_DEC, opcode 0x21, format C: the frame (42_slip.md R92). -/
  | slipDec (chunk : List Byte)
  /-- SP_FEED, opcode 0x30, format C: the chunk (43_spacepacket.md R104). -/
  | spFeed (chunk : List Byte)
  /-- SP_FLUSH, opcode 0x31, format N (43_spacepacket.md R114). -/
  | spFlush
  /-- SP_DISCARD, opcode 0x32, format N (43_spacepacket.md R116). -/
  | spDiscard
  deriving DecidableEq, Repr

/-- The data phase of a command: its chunk, or nothing outside format C (30_encoding.md R45). -/
def Instr.chunk : Instr → List Byte
  | .nop => []
  | .reset => []
  | .rdreg _ => []
  | .wrreg _ _ => []
  | .ccFeed c => c
  | .ccDiscard => []
  | .slipEnc c => c
  | .slipDec c => c
  | .spFeed c => c
  | .spFlush => []
  | .spDiscard => []

/-- OPC of each command (30_encoding.md R49). -/
def Instr.opcode : Instr → Byte
  | .nop => 0x00
  | .reset => 0x01
  | .rdreg _ => 0x02
  | .wrreg _ _ => 0x03
  | .ccFeed _ => 0x10
  | .ccDiscard => 0x11
  | .slipEnc _ => 0x20
  | .slipDec _ => 0x21
  | .spFeed _ => 0x30
  | .spFlush => 0x31
  | .spDiscard => 0x32

/-- The pseudo-instructions of 30_encoding.md R58. -/
inductive Pseudo where
  | cfg (reg : Byte) (value : Half)
  | spEnd
  | ccTimeoutOff
  | slipRfc1055
  | slipBt
  deriving DecidableEq, Repr

/-- The expansions of 30_encoding.md R58, with the register addresses of 10_state.md R26. -/
def Pseudo.expand : Pseudo → List Instr
  | .cfg reg value => [.wrreg reg value]
  | .spEnd => [.spFlush]
  | .ccTimeoutOff => [.wrreg 0x10 0]
  | .slipRfc1055 =>
    [.wrreg 0x20 0, .wrreg 0x22 0xDB, .wrreg 0x23 0xC0, .wrreg 0x25 0xDC, .wrreg 0x26 0xDD]
  | .slipBt => [.wrreg 0x20 0x4]

end Sys2Proof
end

