-- ==== Sys2Proof/WellFormed.lean ====
section
/-! DEFINITION. When a term of `Instr` is a command a word can encode. The one check: a chunk's length fits the 16-bit LEN field
(00_scope.md R5, 30_encoding.md R48). Every register address and every DATA value has an encoding (30_encoding.md R47). -/

namespace Sys2Proof

/-- The chunk is at most MAX_CHUNK bytes long (00_scope.md R5). -/
def Instr.wellFormed (i : Instr) : Bool := decide (i.chunk.length ≤ Config.maxChunk)

/-- `Instr.wellFormed` as a proposition. -/
abbrev Instr.WellFormed (i : Instr) : Prop := i.wellFormed = true

end Sys2Proof
end

