-- ==== Sys2Proof/Decode.lean ====
section
/-! DEFINITION. From bytes to a command and back (30_encoding.md R45 to R52). A command is a 32-bit word, most significant byte
first (20_memory.md R36), then its data phase. Decoding is total and rejects by name; the encoder follows the same formats. -/

namespace Sys2Proof

/-- Why a command's bytes are no command. The first two are the ILLEGAL of 30_encoding.md R50; the third says that the bytes
end before the word or its data phase does. -/
inductive DecodeError where
  | unknownOpcode
  | reservedBits
  | truncated
  deriving DecidableEq, Repr

/-! ### Byte order (20_memory.md R36: big-endian) -/

/-- The 32-bit word whose bytes, most significant first, are the four given. -/
def wordOfBytes (b0 b1 b2 b3 : Byte) : Word := b0 ++ b1 ++ b2 ++ b3

/-- Byte `k` of a value, counted from the least significant. -/
def byteAt {n : Nat} (k : Nat) (v : BitVec n) : Byte := v.extractLsb' (8 * k) 8

/-- The four bytes of a word, most significant first. -/
def bytesOfWord (w : Word) : List Byte := [byteAt 3 w, byteAt 2 w, byteAt 1 w, byteAt 0 w]

/-! ### Fields of a command word (30_encoding.md R45) -/

/-- OPC = w[31:24]. -/
def opcField (w : Word) : Byte := w.extractLsb' 24 8

/-- REG = w[23:16]; reserved in formats N and C. -/
def regField (w : Word) : Byte := w.extractLsb' 16 8

/-- DATA = LEN = w[15:0]. -/
def dataField (w : Word) : Half := w.extractLsb' 0 16

/-- w[23:0], the reserved bits of format N (30_encoding.md R46). -/
def lowField (w : Word) : BitVec 24 := w.extractLsb' 0 24

/-- The opcodes of format C (30_encoding.md R49). -/
def isChunkOpcode (opc : Byte) : Bool := opc = 0x10 || opc = 0x20 || opc = 0x21 || opc = 0x30

/-- How many data bytes the block takes after the word: LEN for a known format C opcode, reserved bits set or not, and none
otherwise (30_encoding.md R51). -/
def dataPhase (w : Word) : Nat := if isChunkOpcode (opcField w) then (dataField w).toNat else 0

/-! ### Decoding (30_encoding.md R50) -/

/-- A format N command: bits 23:0 must be 0 (30_encoding.md R46). -/
def decodeN (w : Word) (i : Instr) : Except DecodeError Instr :=
  if lowField w = 0 then .ok i else .error .reservedBits

/-- A format C command: bits 23:16 must be 0 (30_encoding.md R48). -/
def decodeC (w : Word) (i : Instr) : Except DecodeError Instr :=
  if regField w = 0 then .ok i else .error .reservedBits

/-- RDREG: DATA must be 0 (30_encoding.md R47). -/
def decodeRead (w : Word) : Except DecodeError Instr :=
  if dataField w = 0 then .ok (.rdreg (regField w)) else .error .reservedBits

/-- Decode(w) of 30_encoding.md R50, given the bytes of the word's data phase. -/
def decodeWord (w : Word) (chunk : List Byte) : Except DecodeError Instr :=
  match (opcField w).toNat with
  | 0x00 => decodeN w .nop
  | 0x01 => decodeN w .reset
  | 0x02 => decodeRead w
  | 0x03 => .ok (.wrreg (regField w) (dataField w))
  | 0x10 => decodeC w (.ccFeed chunk)
  | 0x11 => decodeN w .ccDiscard
  | 0x20 => decodeC w (.slipEnc chunk)
  | 0x21 => decodeC w (.slipDec chunk)
  | 0x30 => decodeC w (.spFeed chunk)
  | 0x31 => decodeN w .spFlush
  | 0x32 => decodeN w .spDiscard
  | _ => .error .unknownOpcode

/-- One command from the front of a byte stream, and the bytes after it. -/
def decode : List Byte → Except DecodeError (Instr × List Byte)
  | b0 :: b1 :: b2 :: b3 :: rest =>
    let w := wordOfBytes b0 b1 b2 b3
    let n := dataPhase w
    if rest.length < n then .error .truncated
    else
      match decodeWord w (rest.take n) with
      | .ok i => .ok (i, rest.drop n)
      | .error e => .error e
  | _ => .error .truncated

/-! ### Encoding (30_encoding.md R45 to R49) -/

/-- The REG field a command's word carries: 0 outside format R. -/
def Instr.regOperand : Instr → Byte
  | .nop => 0
  | .reset => 0
  | .rdreg reg => reg
  | .wrreg reg _ => reg
  | .ccFeed _ => 0
  | .ccDiscard => 0
  | .slipEnc _ => 0
  | .slipDec _ => 0
  | .spFeed _ => 0
  | .spFlush => 0
  | .spDiscard => 0

/-- Bits 15:0 of a command's word: DATA for WRREG, LEN for format C, and 0 otherwise. -/
def Instr.dataOperand : Instr → Half
  | .nop => 0
  | .reset => 0
  | .rdreg _ => 0
  | .wrreg _ data => data
  | .ccFeed c => BitVec.ofNat 16 c.length
  | .ccDiscard => 0
  | .slipEnc c => BitVec.ofNat 16 c.length
  | .slipDec c => BitVec.ofNat 16 c.length
  | .spFeed c => BitVec.ofNat 16 c.length
  | .spFlush => 0
  | .spDiscard => 0

/-- The command word OPC, REG, DATA of a command (30_encoding.md R45). -/
def encodeWord (i : Instr) : Word := i.opcode ++ i.regOperand ++ i.dataOperand

/-- The bytes of a command: its word, most significant byte first, then its data phase (30_encoding.md R57). -/
def encode (i : Instr) : List Byte := bytesOfWord (encodeWord i) ++ i.chunk

/-! ### The opcode table's own numbering -/

/-- The `n` bytes that stand above bit 32 of `w` when the word's bits are bits 31:0 and each data byte takes the next eight. -/
def tableData (w : Nat) : Nat → List Byte
  | 0 => []
  | n + 1 => BitVec.ofNat 8 w :: tableData (w / 256) n

/-- The bytes of the instruction whose bits are the low `nbits` of `w` as spec/opcode_table.json numbers them, every bit above
being 0: the word, most significant byte first, then the data phase its opcode calls for. -/
def tableBytes (nbits w : Nat) : List Byte :=
  let v := w % 2 ^ nbits
  let word := BitVec.ofNat 32 v
  bytesOfWord word ++ tableData (v / 2 ^ 32) (dataPhase word)

/-- The instruction the decoder reads from a table word. -/
def decodeTableWord (nbits w : Nat) : Option Instr :=
  match decode (tableBytes nbits w) with
  | .ok (i, _) => some i
  | .error _ => none

end Sys2Proof
end

