-- ==== Sys2Proof/Machine/State.lean ====
section
/-! DEFINITION. The state of the machine. `Block` is the table of 10_state.md R6, element by element, grouped by unit; `Port` is
what 10_state.md R7 puts outside the block's state (inputs, parameters and the log of outputs), which stands here because
`step` takes only a `State` (log 1). -/

namespace Sys2Proof.Machine

/-! ### The block's state (10_state.md R6) -/

/-- A byte accumulator (40_accumulator.md R59): its contents, oldest byte first, and its cursor. -/
structure Acc where
  bytes : List Byte
  cursor : Nat
  deriving DecidableEq, Repr

/-- The state of the CC unit (10_state.md R13 to R16). -/
structure CcUnit where
  /-- CC_ACC -/
  acc : Acc
  /-- CC_MAXDELAY, in ms; 0 disables the timeout (R14) -/
  maxDelay : Half
  /-- CC_LAST_TIME (R15) -/
  lastTime : Word
  /-- CC_LAST_VALID (R15) -/
  lastValid : Bool
  /-- CC_DESYNC_COUNT (R16) -/
  desyncCount : Word
  /-- CC_LOCK (R12) -/
  lock : Bool
  deriving DecidableEq, Repr

/-- The state of the SLIP unit: configuration only, for it holds no data between commands (10_state.md R17, R18). -/
structure SlipUnit where
  /-- SLIP_CTRL: bit 0 START_EN, bit 1 ESC_START_EN, bit 2 BT_QUIRK (R17) -/
  ctrl : BitVec 3
  /-- SLIP_START -/
  startByte : Byte
  /-- SLIP_ESC -/
  escByte : Byte
  /-- SLIP_END -/
  endByte : Byte
  /-- SLIP_ESC_START -/
  escStart : Byte
  /-- SLIP_ESC_END -/
  escEnd : Byte
  /-- SLIP_ESC_ESC -/
  escEsc : Byte
  /-- SLIP_LOCK (R12) -/
  lock : Bool
  deriving DecidableEq, Repr

/-- SP_STATE (10_state.md R19). -/
inductive SpState where
  | awaitingHeader
  | awaitingBody
  deriving DecidableEq, Repr

/-- The state of the SP unit (10_state.md R19 to R25). -/
structure SpUnit where
  /-- SP_STATE (R19) -/
  state : SpState
  /-- SP_HACC (R20) -/
  hacc : Acc
  /-- SP_BACC (R21) -/
  bacc : Acc
  /-- SP_HDR (R22) -/
  hdr : Header
  /-- SP_HDR_VALID (R22) -/
  hdrValid : Bool
  /-- SP_DL (R23) -/
  dl : Word
  /-- SP_TCLEN (R24) -/
  tcLen : Half
  /-- SP_ANCLEN (R24) -/
  ancLen : Half
  /-- SP_LOCK (R12) -/
  lock : Bool
  /-- SP_FAULT (R25) -/
  fault : Bool
  /-- SP_ERR (R25) -/
  err : Byte
  deriving DecidableEq, Repr

/-- Every element of 10_state.md R6, and nothing else. -/
structure Block where
  /-- CMD_COUNT, the block's analogue of a program counter (R9) -/
  cmdCount : Word
  cc : CcUnit
  slip : SlipUnit
  sp : SpUnit
  deriving DecidableEq, Repr

/-! ### What the block sends -/

/-- The two words of a response (30_encoding.md R53). -/
structure Response where
  resp0 : Word
  resp1 : Word
  deriving DecidableEq, Repr

/-- A record as the output port carries it (30_encoding.md R54): TAG, a 24-bit LEN, BODY. -/
structure Record where
  tag : Byte
  len : BitVec 24
  body : List Byte
  deriving DecidableEq, Repr

/-- The output units of 30_encoding.md R54, which the rules `emit`. An absent `tc` or `anc` is `none`. -/
inductive OutputUnit where
  | ccFrame (bytes : List Byte)
  | slipEnc (bytes : List Byte)
  | slipDec (bytes : List Byte)
  | spPacket (hdr : Header) (tc anc : Option (List Byte)) (data : List Byte)
  | spResidue (bytes : List Byte)
  deriving DecidableEq, Repr

/-- The response codes, and only these (60_exceptions.md R122). -/
inductive Code where
  | ok
  | illegal
  | badReg
  | readOnly
  | locked
  | range
  | slipFormat
  | faulted
  | spSecHdr
  | spNoHdr
  | spCap
  deriving DecidableEq, Repr

/-! ### The host's side (10_state.md R7) -/

/-- What the host does to the block, in the order it happens (00_scope.md R4): a byte of the command stream, stamped with
the value the TIME input has when it arrives, or an assertion of the reset input (70_reset_and_hazards.md R132). -/
inductive HostEvent where
  | byte (time : Word) (b : Byte)
  | resetInput
  deriving DecidableEq, Repr

/-- Not state of the block (10_state.md R7): its inputs, its parameters, and the log of what it has sent. -/
structure Port where
  /-- what the host will still do, next first -/
  input : List HostEvent
  /-- the TIME sample of the command being executed (41_cctalk.md R69) -/
  now : Word
  /-- SP_DL_FN and SP_FLUSH_EMPTY; no command writes them -/
  params : Params
  /-- every response given, oldest first -/
  responses : List Response
  /-- every record sent on the output port, oldest first -/
  output : List Record
  deriving DecidableEq, Repr

structure State where
  block : Block
  port : Port
  deriving DecidableEq, Repr

/-! ### Reset (10_state.md R32, 70_reset_and_hazards.md R133) -/

/-- An empty accumulator, cursor 0. -/
def Acc.empty : Acc := { bytes := [], cursor := 0 }

/-- Every element at the value of 10_state.md R32. -/
def Block.reset : Block :=
  { cmdCount := 0
    cc :=
      { acc := Acc.empty, maxDelay := 50, lastTime := 0, lastValid := false, desyncCount := 0, lock := false }
    slip :=
      { ctrl := 0, startByte := 0x00, escByte := 0xDB, endByte := 0xC0, escStart := 0x00, escEnd := 0xDC,
        escEsc := 0xDD, lock := false }
    sp :=
      { state := .awaitingHeader, hacc := Acc.empty, bacc := Acc.empty, hdr := ⟨0, 0, 0, 0, 0, 0⟩,
        hdrValid := false, dl := 0, tcLen := 0, ancLen := 0, lock := false, fault := false, err := 0 } }

/-- A port on which nothing has happened, with the parameters at the spec's defaults. DESIGN CHOICE (logs 1, 2, 3, 4, 8): these
are not elements of the block, and no statement rests on them. -/
def Port.quiet : Port := { input := [], now := 0, params := Params.default, responses := [], output := [] }

/-- The machine right after reset. -/
def State.reset : State := { block := Block.reset, port := Port.quiet }

/-! ### Ways a step can stop -/

/-- No step of this block stops with a fault: a refusal of the block and an SP fault are responses, after which it runs on
(60_exceptions.md R123, R127). So the type has no constructor, and a claim that no step faults holds by it. -/
inductive Fault where
  deriving DecidableEq, Repr

/-- Why the model gives a step no meaning. -/
inductive Refusal where
  /-- raised by `exec`'s arm of an instruction that has no meaning yet; safe. No arm raises it. -/
  | notModelled (mnemonic : String)
  /-- raised by `Acc.append` on an accumulator whose cursor is at its capacity: 40_accumulator.md R61, "a model makes that step
  a refusal, never a dropped byte". Not reached from reset (R64); safe. -/
  | accAppendFull
  /-- raised by `Acc.at` on an index outside the contents: 40_accumulator.md R62, "A model refuses one rather than return a value".
  Not reached from reset; safe. -/
  | accAtOutOfRange
  /-- raised by `Acc.take` of more bytes than there are, which breaks the precondition of 40_accumulator.md R63. Not reached
  from reset; safe. -/
  | accTakeTooMany
  deriving DecidableEq, Repr

end Sys2Proof.Machine
end

