-- ==== Sys2Proof/Machine/Accumulator.lean ====
section
/-! DEFINITION. The byte accumulator's five primitives (40_accumulator.md R59 to R64). They are internal: no command reaches an
accumulator but through them. A broken precondition is a refusal of the model, as R61 and R62 ask. -/

namespace Sys2Proof.Machine

/-- AccCount (40_accumulator.md R64): the cursor. -/
abbrev Acc.count (a : Acc) : Nat := a.cursor

/-- AccClear (40_accumulator.md R60). -/
def Acc.clear (_a : Acc) : Acc := { bytes := [], cursor := 0 }

/-- AccAppend, on an accumulator of capacity `cap` (40_accumulator.md R61). -/
def Acc.append (cap : Nat) (a : Acc) (b : Byte) : Except Refusal Acc :=
  if a.cursor < cap then .ok { bytes := a.bytes ++ [b], cursor := a.cursor + 1 }
  else .error .accAppendFull

/-- AccAt (40_accumulator.md R62): indices count from the oldest unconsumed byte. -/
def Acc.readAt (a : Acc) (i : Nat) : Except Refusal Byte :=
  if i < a.cursor then
    match a.bytes[i]? with
    | some b => .ok b
    | none => .error .accAtOutOfRange
  else .error .accAtOutOfRange

/-- AccTake (40_accumulator.md R63): the `n` oldest bytes, and the accumulator without them. -/
def Acc.take (a : Acc) (n : Nat) : Except Refusal (List Byte × Acc) :=
  if n ≤ a.cursor ∧ n ≤ a.bytes.length then
    .ok (a.bytes.take n, { bytes := a.bytes.drop n, cursor := a.cursor - n })
  else .error .accTakeTooMany

end Sys2Proof.Machine
end

