-- ==== Sys2Proof/Machine/Flags.lean ====
section
/-! DEFINITION. The block's one flag DESYNC, with the timeout test it reports (10_state.md R10, 41_cctalk.md R70, R72), the
SLIP conditions (42_slip.md R82, R96), and the computed register STATUS (10_state.md R11). -/

namespace Sys2Proof.Machine

/-- A flag as one bit of a register. -/
def bit (b : Bool) : BitVec 1 := BitVec.ofBool b

/-- SP_STATE as its bit: 1 is AwaitingBody (10_state.md R19). -/
def SpState.bodyBit : SpState → Bool
  | .awaitingHeader => false
  | .awaitingBody => true

/-- STATUS, computed at each read (10_state.md R11): bits 6 down to 0, and 0 above. -/
def Block.status (b : Block) : Word :=
  (bit b.sp.hdrValid ++ bit b.cc.lastValid ++ bit b.sp.fault ++ bit b.sp.state.bodyBit ++ bit b.sp.lock
    ++ bit b.slip.lock ++ bit b.cc.lock).setWidth 32

/-- The gap between the last sample and `now`, modulo 2^32 (41_cctalk.md R70). -/
def CcUnit.gap (u : CcUnit) (now : Word) : Word := now - u.lastTime

/-- The timeout check discards: timing is enabled, there is a sample, and the gap exceeds CC_MAXDELAY (41_cctalk.md R70). -/
def CcUnit.discards (u : CcUnit) (now : Word) : Bool :=
  u.maxDelay ≠ 0 && u.lastValid && decide (u.maxDelay.toNat < (u.gap now).toNat)

/-- DESYNC: the timeout check discards at least one byte (10_state.md R10, 41_cctalk.md R72). -/
def CcUnit.desync (u : CcUnit) (now : Word) : Bool := u.discards now && decide (0 < u.acc.count)

/-- S of 42_slip.md R82: SLIP_CTRL.START_EN. -/
def SlipUnit.startEn (u : SlipUnit) : Bool := u.ctrl.getLsbD 0

/-- SLIP_CTRL.ESC_START_EN (10_state.md R17). -/
def SlipUnit.escStartEn (u : SlipUnit) : Bool := u.ctrl.getLsbD 1

/-- Q of 42_slip.md R82: SLIP_CTRL.BT_QUIRK. -/
def SlipUnit.quirk (u : SlipUnit) : Bool := u.ctrl.getLsbD 2

/-- SE of 42_slip.md R82: a START byte and a substitute for it are configured. -/
def SlipUnit.startEscaped (u : SlipUnit) : Bool := u.startEn && u.escStartEn

/-- ECLASS of 42_slip.md R96: the escape class of END exists. -/
def SlipUnit.eClass (u : SlipUnit) : Bool := !(u.startEscaped && u.startByte == u.endByte)

/-- XCLASS of 42_slip.md R96: the escape class of ESC exists. -/
def SlipUnit.xClass (u : SlipUnit) : Bool :=
  !(u.startEscaped && u.startByte == u.escByte) && u.escByte != u.endByte

end Sys2Proof.Machine
end

