-- ==== Sys2Proof/Machine/Operands.lean ====
section
/-! DEFINITION. The one operand form that names state: a control-register address (10_state.md R26). The map, what each address
reads (10_state.md R27), which registers are read-only, which lock guards each, which values fit (44_control.md R121) and
what a write stores. -/

namespace Sys2Proof.Machine

/-- The 21 implemented registers, by the names of 10_state.md R26. -/
inductive Reg where
  | status
  | spErr
  | cmdCount
  | ccMaxDelay
  | ccCount
  | ccLastTime
  | ccDesyncCount
  | slipCtrl
  | slipStart
  | slipEsc
  | slipEnd
  | slipEscStart
  | slipEscEnd
  | slipEscEsc
  | spTcLen
  | spAncLen
  | spHdrCount
  | spBodyCount
  | spDl
  | spHdrW0
  | spHdrW1
  deriving DecidableEq, Repr

/-- The address column of 10_state.md R26; any other address is not implemented. -/
def Reg.ofAddr (a : Byte) : Option Reg :=
  match a.toNat with
  | 0x00 => some .status
  | 0x01 => some .spErr
  | 0x02 => some .cmdCount
  | 0x10 => some .ccMaxDelay
  | 0x11 => some .ccCount
  | 0x12 => some .ccLastTime
  | 0x13 => some .ccDesyncCount
  | 0x20 => some .slipCtrl
  | 0x21 => some .slipStart
  | 0x22 => some .slipEsc
  | 0x23 => some .slipEnd
  | 0x24 => some .slipEscStart
  | 0x25 => some .slipEscEnd
  | 0x26 => some .slipEscEsc
  | 0x30 => some .spTcLen
  | 0x31 => some .spAncLen
  | 0x32 => some .spHdrCount
  | 0x33 => some .spBodyCount
  | 0x34 => some .spDl
  | 0x35 => some .spHdrW0
  | 0x36 => some .spHdrW1
  | _ => none

/-- SP_HDR_W0 (10_state.md R22): hdr[0] is the most significant byte. -/
def headerWord0 (h : Header) : Word := wordOfBytes h.b0 h.b1 h.b2 h.b3

/-- SP_HDR_W1 (10_state.md R22). -/
def headerWord1 (h : Header) : Half := h.b4 ++ h.b5

/-- What a register reads: its implemented bits, and 0 above them (10_state.md R26, R27). -/
def Reg.read (r : Reg) (b : Block) : Word :=
  match r with
  | .status => b.status
  | .spErr => b.sp.err.setWidth 32
  | .cmdCount => b.cmdCount
  | .ccMaxDelay => b.cc.maxDelay.setWidth 32
  | .ccCount => (BitVec.ofNat 9 b.cc.acc.count).setWidth 32
  | .ccLastTime => b.cc.lastTime
  | .ccDesyncCount => b.cc.desyncCount
  | .slipCtrl => b.slip.ctrl.setWidth 32
  | .slipStart => b.slip.startByte.setWidth 32
  | .slipEsc => b.slip.escByte.setWidth 32
  | .slipEnd => b.slip.endByte.setWidth 32
  | .slipEscStart => b.slip.escStart.setWidth 32
  | .slipEscEnd => b.slip.escEnd.setWidth 32
  | .slipEscEsc => b.slip.escEsc.setWidth 32
  | .spTcLen => b.sp.tcLen.setWidth 32
  | .spAncLen => b.sp.ancLen.setWidth 32
  | .spHdrCount => (BitVec.ofNat 3 b.sp.hacc.count).setWidth 32
  | .spBodyCount => (BitVec.ofNat 17 b.sp.bacc.count).setWidth 32
  | .spDl => b.sp.dl
  | .spHdrW0 => headerWord0 b.sp.hdr
  | .spHdrW1 => (headerWord1 b.sp.hdr).setWidth 32

/-- The access column of 10_state.md R26: RO. -/
def Reg.readOnly : Reg → Bool
  | .status => true
  | .spErr => true
  | .cmdCount => true
  | .ccMaxDelay => false
  | .ccCount => true
  | .ccLastTime => true
  | .ccDesyncCount => true
  | .slipCtrl => false
  | .slipStart => false
  | .slipEsc => false
  | .slipEnd => false
  | .slipEscStart => false
  | .slipEscEnd => false
  | .slipEscEsc => false
  | .spTcLen => false
  | .spAncLen => false
  | .spHdrCount => true
  | .spBodyCount => true
  | .spDl => true
  | .spHdrW0 => true
  | .spHdrW1 => true

/-- The lock column of 10_state.md R26, read: whether the lock of the register's unit is 1 (10_state.md R12). The read-only
registers have no lock. -/
def Reg.locked (r : Reg) (b : Block) : Bool :=
  match r with
  | .status => false
  | .spErr => false
  | .cmdCount => false
  | .ccMaxDelay => b.cc.lock
  | .ccCount => false
  | .ccLastTime => false
  | .ccDesyncCount => false
  | .slipCtrl => b.slip.lock
  | .slipStart => b.slip.lock
  | .slipEsc => b.slip.lock
  | .slipEnd => b.slip.lock
  | .slipEscStart => b.slip.lock
  | .slipEscEnd => b.slip.lock
  | .slipEscEsc => b.slip.lock
  | .spTcLen => b.sp.lock
  | .spAncLen => b.sp.lock
  | .spHdrCount => false
  | .spBodyCount => false
  | .spDl => false
  | .spHdrW0 => false
  | .spHdrW1 => false

/-- How many of DATA's bits a writable register implements (10_state.md R26): 16, 8, or SLIP_CTRL's 3. The read-only registers
have none. -/
def Reg.dataBits : Reg → Nat
  | .status => 0
  | .spErr => 0
  | .cmdCount => 0
  | .ccMaxDelay => 16
  | .ccCount => 0
  | .ccLastTime => 0
  | .ccDesyncCount => 0
  | .slipCtrl => 3
  | .slipStart => 8
  | .slipEsc => 8
  | .slipEnd => 8
  | .slipEscStart => 8
  | .slipEscEnd => 8
  | .slipEscEsc => 8
  | .spTcLen => 16
  | .spAncLen => 16
  | .spHdrCount => 0
  | .spBodyCount => 0
  | .spDl => 0
  | .spHdrW0 => 0
  | .spHdrW1 => 0

/-- DATA fits the register's implemented bits (44_control.md R121). -/
def Reg.fits (r : Reg) (data : Half) : Bool := decide (data.toNat < 2 ^ r.dataBits)

/-- A write that is not refused stores DATA exactly (10_state.md R26); a read-only register is never written. -/
def Reg.write (r : Reg) (data : Half) (b : Block) : Block :=
  match r with
  | .status => b
  | .spErr => b
  | .cmdCount => b
  | .ccMaxDelay => { b with cc := { b.cc with maxDelay := data } }
  | .ccCount => b
  | .ccLastTime => b
  | .ccDesyncCount => b
  | .slipCtrl => { b with slip := { b.slip with ctrl := data.setWidth 3 } }
  | .slipStart => { b with slip := { b.slip with startByte := data.setWidth 8 } }
  | .slipEsc => { b with slip := { b.slip with escByte := data.setWidth 8 } }
  | .slipEnd => { b with slip := { b.slip with endByte := data.setWidth 8 } }
  | .slipEscStart => { b with slip := { b.slip with escStart := data.setWidth 8 } }
  | .slipEscEnd => { b with slip := { b.slip with escEnd := data.setWidth 8 } }
  | .slipEscEsc => { b with slip := { b.slip with escEsc := data.setWidth 8 } }
  | .spTcLen => { b with sp := { b.sp with tcLen := data } }
  | .spAncLen => { b with sp := { b.sp with ancLen := data } }
  | .spHdrCount => b
  | .spBodyCount => b
  | .spDl => b
  | .spHdrW0 => b
  | .spHdrW1 => b

end Sys2Proof.Machine
end

