-- ==== Sys2Proof/Machine/Ops.lean ====
section
/-! DEFINITION. The shared operations: what a record and a response look like on the wire (30_encoding.md R53 to R55,
20_memory.md R36), how a command ends (30_encoding.md R56), what a refusal does (60_exceptions.md R123), how the SP fault is raised
(60_exceptions.md R125), and what reset does (70_reset_and_hazards.md R133). There is no return from a fault but reset
(60_exceptions.md R127). -/

namespace Sys2Proof.Machine

/-! ### Records (30_encoding.md R54, R55) -/

/-- The six bytes of a header, hdr[0] first. -/
def headerBytes (h : Header) : List Byte := [h.b0, h.b1, h.b2, h.b3, h.b4, h.b5]

/-- A length as two big-endian bytes (20_memory.md R36). -/
def be16 (n : Nat) : List Byte := [byteAt 1 (BitVec.ofNat 16 n), byteAt 0 (BitVec.ofNat 16 n)]

/-- PRES of an SpPacket record (30_encoding.md R55): bit 0 the secondary header, bit 1 the time code, bit 2 the ancillary data. -/
def presByte (tc anc : Option (List Byte)) : Byte :=
  (bit anc.isSome ++ bit tc.isSome ++ bit (tc.isSome || anc.isSome)).setWidth 8

/-- TAG of an output unit (30_encoding.md R54). -/
def OutputUnit.tag : OutputUnit → Byte
  | .ccFrame _ => 0x01
  | .slipEnc _ => 0x02
  | .slipDec _ => 0x03
  | .spPacket _ _ _ _ => 0x04
  | .spResidue _ => 0x05

/-- BODY of an output unit (30_encoding.md R54, R55). -/
def OutputUnit.body : OutputUnit → List Byte
  | .ccFrame bytes => bytes
  | .slipEnc bytes => bytes
  | .slipDec bytes => bytes
  | .spPacket hdr tc anc data =>
    presByte tc anc :: be16 (tc.getD []).length ++ be16 (anc.getD []).length ++ headerBytes hdr ++ tc.getD []
      ++ anc.getD [] ++ data
  | .spResidue bytes => bytes

/-- The record of an output unit (30_encoding.md R54). -/
def OutputUnit.record (u : OutputUnit) : Record :=
  { tag := u.tag, len := BitVec.ofNat 24 u.body.length, body := u.body }

/-- The bytes of a record on the output port: TAG, LEN big-endian, BODY (30_encoding.md R54). -/
def Record.wire (r : Record) : List Byte := r.tag :: byteAt 2 r.len :: byteAt 1 r.len :: byteAt 0 r.len :: r.body

/-- The bytes sent on the output port so far. -/
def State.outputStream (s : State) : List Byte := s.port.output.flatMap Record.wire

/-! ### Responses (30_encoding.md R53, 60_exceptions.md R122) -/

/-- The CODE of each response code (60_exceptions.md R122). -/
def Code.value : Code → Byte
  | .ok => 0x00
  | .illegal => 0x01
  | .badReg => 0x02
  | .readOnly => 0x03
  | .locked => 0x04
  | .range => 0x05
  | .slipFormat => 0x06
  | .faulted => 0x07
  | .spSecHdr => 0x80
  | .spNoHdr => 0x81
  | .spCap => 0x82

/-- RESP0 = CODE, FLAGS (bit 0 is DESYNC), NOUT; RESP1 = RDATA (30_encoding.md R53). -/
def respond (code : Code) (desync : Bool) (nout : Nat) (rdata : Word) : Response :=
  { resp0 := code.value ++ (bit desync).setWidth 8 ++ BitVec.ofNat 16 nout, resp1 := rdata }

/-- The bytes of a response sent over a byte-wide link: each word most significant byte first (20_memory.md R36), RESP0 before
RESP1 (DEDUCED from the order of 30_encoding.md R53 and R56, log 17). -/
def Response.wire (r : Response) : List Byte := bytesOfWord r.resp0 ++ bytesOfWord r.resp1

/-- The bytes given on the response port so far, where it is a byte-wide link. -/
def State.responseStream (s : State) : List Byte := s.port.responses.flatMap Response.wire

/-! ### How a command ends -/

/-- Send a command's records, in order, then its response (30_encoding.md R53, R54; NOUT is the number of records). -/
def State.report (code : Code) (desync : Bool) (units : List OutputUnit) (rdata : Word) (s : State) : State :=
  { s with
    port :=
      { s.port with
        responses := s.port.responses ++ [respond code desync units.length rdata]
        output := s.port.output ++ units.map OutputUnit.record } }

/-- The common increment of 30_encoding.md R56 (10_state.md R9). -/
def Block.countCommand (b : Block) : Block := { b with cmdCount := b.cmdCount + 1 }

/-- End a command whose rule leaves the block at `b`: its records and response, and the count. Every command but RESET ends
here (30_encoding.md R56). -/
def State.finish (code : Code) (desync : Bool) (units : List OutputUnit) (rdata : Word) (b : Block) (s : State) : State :=
  State.report code desync units rdata { s with block := b.countCommand }

/-- refuse(code) of 60_exceptions.md R123: the response, the count, and nothing else. -/
def State.refuse (code : Code) (s : State) : State := State.finish code false [] 0 s.block s

/-- raise Fault(code) of 60_exceptions.md R125, where the SP unit stands at `u` and this command has emitted `units`: SP_FAULT
and SP_ERR are set, every other SP element keeps its value, and the code is the response. -/
def State.raiseFault (code : Code) (units : List OutputUnit) (u : SpUnit) (s : State) : State :=
  State.finish code false units 0 { s.block with sp := { u with fault := true, err := code.value } } s

/-! ### Reset -/

/-- Every element takes its reset value, all at once (70_reset_and_hazards.md R133). No record, no response. -/
def State.resetBlock (s : State) : State := { s with block := Block.reset }

end Sys2Proof.Machine
end

