-- ==== Sys2Proof/Machine/CcTalk.lean ====
section
/-! DEFINITION. The CCTalk frame decoder: CC_FEED and CC_DISCARD (41_cctalk.md R67 to R81). -/

namespace Sys2Proof.Machine

/-- The timing step of CC_FEED, run before any byte (41_cctalk.md R70 to R72): discard, count a discard that dropped a byte,
and take the sample. With CC_MAXDELAY = 0 it does nothing. -/
def CcUnit.timingStep (now : Word) (u : CcUnit) : CcUnit :=
  if u.maxDelay = 0 then u
  else
    { u with
      acc := if u.discards now then u.acc.clear else u.acc
      desyncCount := if u.desync now then u.desyncCount + 1 else u.desyncCount
      lastTime := now
      lastValid := true }

/-- One byte of CC_FEED's loop: append it, and take the frame it completes (41_cctalk.md R67, R74, R75). -/
def CcUnit.pushByte (b : Byte) (u : CcUnit) : Except Refusal (CcUnit × List OutputUnit) :=
  match u.acc.append Config.ccBufCap b with
  | .error r => .error r
  | .ok acc =>
    if 2 ≤ acc.count then
      match acc.readAt 1 with
      | .error r => .error r
      | .ok lengthByte =>
        if lengthByte.toNat + 5 ≤ acc.count then
          match acc.take (lengthByte.toNat + 5) with
          | .error r => .error r
          | .ok (frame, left) => .ok ({ u with acc := left }, [.ccFrame frame])
        else .ok ({ u with acc := acc }, [])
    else .ok ({ u with acc := acc }, [])

/-- CC_FEED's loop over the chunk, in index order: the unit after it and the frames emitted (41_cctalk.md R67). -/
def CcUnit.pushBytes : List Byte → CcUnit → Except Refusal (CcUnit × List OutputUnit)
  | [], u => .ok (u, [])
  | b :: rest, u =>
    match u.pushByte b with
    | .error r => .error r
    | .ok (u', first) =>
      match CcUnit.pushBytes rest u' with
      | .error r => .error r
      | .ok (u'', more) => .ok (u'', first ++ more)

/-- CC_FEED (41_cctalk.md R67): lock (R68), timing step, loop, response. -/
def execCcFeed (chunk : List Byte) (s : State) : Host.Outcome State Fault Refusal :=
  let u : CcUnit := { s.block.cc with lock := true }
  match CcUnit.pushBytes chunk (u.timingStep s.port.now) with
  | .error r => .refused r
  | .ok (u', frames) =>
    .next (State.finish .ok (u.desync s.port.now) frames 0 { s.block with cc := u' } s)

/-- CC_DISCARD (41_cctalk.md R80): empties CC_ACC and nothing else. -/
def execCcDiscard (s : State) : Host.Outcome State Fault Refusal :=
  .next (State.finish .ok false [] 0 { s.block with cc := { s.block.cc with acc := s.block.cc.acc.clear } } s)

end Sys2Proof.Machine
end

