-- ==== Sys2Proof/Machine/Control.lean ====
section
/-! DEFINITION. The block control commands NOP, RESET, RDREG and WRREG (44_control.md R117 to R121). -/

namespace Sys2Proof.Machine

/-- NOP (44_control.md R117): only the common increment. -/
def execNop (s : State) : Host.Outcome State Fault Refusal := .next (State.finish .ok false [] 0 s.block s)

/-- RESET (44_control.md R118): every element to its reset value, a response, no increment. -/
def execReset (s : State) : Host.Outcome State Fault Refusal :=
  .next (State.report .ok false [] 0 (State.resetBlock s))

/-- RDREG (44_control.md R119). The value is read before the command's own increment. -/
def execRdreg (reg : Byte) (s : State) : Host.Outcome State Fault Refusal :=
  match Reg.ofAddr reg with
  | none => .next (State.refuse .badReg s)
  | some r => .next (State.finish .ok false [] (r.read s.block) s.block s)

/-- WRREG (44_control.md R120): the four checks in order, then the write. -/
def execWrreg (reg : Byte) (data : Half) (s : State) : Host.Outcome State Fault Refusal :=
  match Reg.ofAddr reg with
  | none => .next (State.refuse .badReg s)
  | some r =>
    if r.readOnly then .next (State.refuse .readOnly s)
    else if r.locked s.block then .next (State.refuse .locked s)
    else if r.fits data then .next (State.finish .ok false [] 0 (r.write data s.block) s)
    else .next (State.refuse .range s)

end Sys2Proof.Machine
end

