-- ==== Sys2Proof/Machine/Slip.lean ====
section
/-! DEFINITION. The SLIP encoder and decoder: SLIP_ENC and SLIP_DEC (42_slip.md R82 to R100). -/

namespace Sys2Proof.Machine

/-! ### SLIP_ENC -/

/-- The bytes one payload byte becomes: the first test that holds (42_slip.md R87). -/
def SlipUnit.escape (u : SlipUnit) (b : Byte) : List Byte :=
  if u.startEscaped ∧ b = u.startByte then [u.escByte, u.escStart]
  else if b = u.endByte then [u.escByte, u.escEnd]
  else if b = u.escByte then [u.escByte, u.escEsc]
  else [b]

/-- What a frame begins with: END under the quirk, then START when it is configured (42_slip.md R86). -/
def SlipUnit.leader (u : SlipUnit) : List Byte :=
  (if u.quirk then [u.endByte] else []) ++ (if u.startEn then [u.startByte] else [])

/-- A payload as one frame (42_slip.md R86 to R88). -/
def SlipUnit.frame (u : SlipUnit) (chunk : List Byte) : List Byte :=
  u.leader ++ chunk.flatMap u.escape ++ [u.endByte]

/-- The records of SLIP_ENC: none for an empty chunk under the quirk, else the frame (42_slip.md R85, R100). -/
def SlipUnit.encoded (u : SlipUnit) (chunk : List Byte) : List OutputUnit :=
  if u.quirk ∧ chunk = [] then [] else [.slipEnc (u.frame chunk)]

/-- SLIP_ENC (42_slip.md R83): lock (R84), then the record. -/
def execSlipEnc (chunk : List Byte) (s : State) : Host.Outcome State Fault Refusal :=
  let u : SlipUnit := { s.block.slip with lock := true }
  .next (State.finish .ok false (u.encoded chunk) 0 { s.block with slip := u } s)

/-! ### SLIP_DEC -/

/-- The original byte of an escape pair's second byte: the first test that holds, or none (42_slip.md R94). -/
def SlipUnit.unescape (u : SlipUnit) (x : Byte) : Option Byte :=
  if u.startEscaped ∧ x = u.escStart then some u.startByte
  else if u.eClass ∧ x = u.escEnd then some u.endByte
  else if u.xClass ∧ x = u.escEsc then some u.escByte
  else none

/-- A body byte that is not ESC: copied, but for END, and START while SE = 1 (42_slip.md R94). -/
def SlipUnit.copied (u : SlipUnit) (b : Byte) : Bool :=
  !(b == u.endByte) && !(u.startEscaped && b == u.startByte)

/-- The body of a frame, read left to right; none is E_SLIP_FORMAT (42_slip.md R94). An ESC as the last byte of the body has no
second byte in it. -/
def SlipUnit.decodeBody (u : SlipUnit) : List Byte → Option (List Byte)
  | [] => some []
  | [b] => if b = u.escByte then none else if u.copied b then some [b] else none
  | b :: x :: rest =>
    if b = u.escByte then
      match u.unescape x with
      | none => none
      | some y => (u.decodeBody rest).map (y :: ·)
    else if u.copied b then (u.decodeBody (x :: rest)).map (b :: ·)
    else none

/-- The chunk after one byte that must stand at its front; none is E_SLIP_FORMAT (42_slip.md R93). -/
def dropByte (b : Byte) : List Byte → Option (List Byte)
  | [] => none
  | c :: rest => if c = b then some rest else none

/-- The chunk after END (when Q = 1) and START (when S = 1), which must stand there (42_slip.md R93). -/
def SlipUnit.dropLeader (u : SlipUnit) (chunk : List Byte) : Option (List Byte) :=
  match (if u.quirk then dropByte u.endByte chunk else some chunk) with
  | none => none
  | some rest => if u.startEn then dropByte u.startByte rest else some rest

/-- The payload of a frame; none is E_SLIP_FORMAT (42_slip.md R92 to R95). The body is every byte between the leader and the last
byte, which must be END. -/
def SlipUnit.payload (u : SlipUnit) (chunk : List Byte) : Option (List Byte) :=
  if chunk = [] then (if u.quirk then some [] else none)
  else
    match u.dropLeader chunk with
    | none => none
    | some rest => if rest.getLast? = some u.endByte then u.decodeBody rest.dropLast else none

/-- SLIP_DEC (42_slip.md R92): lock (R84), then the payload's record or E_SLIP_FORMAT. -/
def execSlipDec (chunk : List Byte) (s : State) : Host.Outcome State Fault Refusal :=
  let u : SlipUnit := { s.block.slip with lock := true }
  match u.payload chunk with
  | some out => .next (State.finish .ok false [.slipDec out] 0 { s.block with slip := u } s)
  | none => .next (State.finish .slipFormat false [] 0 { s.block with slip := u } s)

end Sys2Proof.Machine
end

