-- ==== Sys2Proof/Machine/SpacePacket.lean ====
section
/-! DEFINITION. The Space Packet decoder: SP_FEED, SP_FLUSH and SP_DISCARD (43_spacepacket.md R101 to R116). -/

namespace Sys2Proof.Machine

/-! ### The declared data length (43_spacepacket.md R102) -/

/-- SP_DL_FN_default: bytes 4 and 5, big-endian, plus one. -/
def spDlDefault (h : Header) : Word := (h.b4 ++ h.b5).setWidth 32 + 1

/-- SP_DL_FN: the default, but for the headers of the parameter's table. -/
def spDlFn (p : Params) (h : Header) : Word := (p.dlTable.lookup h).getD (spDlDefault h)

/-- The header whose bytes are the first six given. -/
def headerOfBytes (l : List Byte) : Header :=
  ⟨l.getD 0 0, l.getD 1 0, l.getD 2 0, l.getD 3 0, l.getD 4 0, l.getD 5 0⟩

/-! ### One byte of SP_FEED -/

/-- How far SP_FEED has come: the unit and the packets so far, and whether a fault ended it (60_exceptions.md R125). -/
inductive SpRun where
  | running (u : SpUnit) (packets : List OutputUnit)
  | faulted (u : SpUnit) (packets : List OutputUnit) (code : Code)
  | refused (r : Refusal)
  deriving DecidableEq, Repr

/-- SP_TCLEN + SP_ANCLEN, as a natural number. -/
def SpUnit.secLen (u : SpUnit) : Nat := u.tcLen.toNat + u.ancLen.toNat

/-- A field of the secondary header: present exactly when its configured length is nonzero (43_spacepacket.md R110). -/
def fieldIfPresent (len : Half) (bytes : List Byte) : Option (List Byte) := if len = 0 then none else some bytes

/-- A body as its packet: time code, ancillary data, payload (43_spacepacket.md R109). -/
def SpUnit.packet (u : SpUnit) (body : List Byte) : OutputUnit :=
  .spPacket u.hdr (fieldIfPresent u.tcLen (body.take u.tcLen.toNat))
    (fieldIfPresent u.ancLen ((body.drop u.tcLen.toNat).take u.ancLen.toNat)) (body.drop u.secLen)

/-- SpComplete (43_spacepacket.md R109). -/
def SpUnit.completePacket (u : SpUnit) : SpRun :=
  if u.hdrValid then
    match u.bacc.take u.dl.toNat with
    | .error r => .refused r
    | .ok (body, left) =>
      .running { u with bacc := left, hdrValid := false, dl := 0, state := .awaitingHeader } [u.packet body]
  else .faulted u [] .spNoHdr

/-- SpParseHeader (43_spacepacket.md R107). -/
def SpUnit.parseHeader (p : Params) (u : SpUnit) : SpRun :=
  match u.hacc.take Config.spHdrLen with
  | .error r => .refused r
  | .ok (bytes, left) =>
    let h := headerOfBytes bytes
    let v : SpUnit := { u with hacc := left, hdr := h, hdrValid := true, dl := spDlFn p h }
    if v.dl.toNat < v.secLen then .faulted v [] .spSecHdr
    else if Config.spBodyCap < v.dl.toNat then .faulted v [] .spCap
    else
      let w : SpUnit := { v with state := .awaitingBody }
      if w.dl.toNat ≤ w.bacc.count then w.completePacket else .running w []

/-- One byte of SP_FEED's loop (43_spacepacket.md R106, R108). -/
def SpUnit.pushByte (p : Params) (b : Byte) (u : SpUnit) : SpRun :=
  match u.state with
  | .awaitingHeader =>
    match u.hacc.append Config.spHdrLen b with
    | .error r => .refused r
    | .ok acc =>
      let v : SpUnit := { u with hacc := acc }
      if acc.count = Config.spHdrLen then v.parseHeader p else .running v []
  | .awaitingBody =>
    match u.bacc.append Config.spBodyCap b with
    | .error r => .refused r
    | .ok acc =>
      let v : SpUnit := { u with bacc := acc }
      if v.dl.toNat ≤ acc.count then v.completePacket else .running v []

/-- Packets emitted before a run. -/
def SpRun.after (first : List OutputUnit) : SpRun → SpRun
  | .running u packets => .running u (first ++ packets)
  | .faulted u packets code => .faulted u (first ++ packets) code
  | .refused r => .refused r

/-- SP_FEED's loop over the chunk; a fault ends it at its byte (43_spacepacket.md R104). -/
def SpUnit.pushBytes (p : Params) : List Byte → SpUnit → SpRun
  | [], u => .running u []
  | b :: rest, u =>
    match u.pushByte p b with
    | .running u' packets => (SpUnit.pushBytes p rest u').after packets
    | .faulted u' packets code => .faulted u' packets code
    | .refused r => .refused r

/-! ### The commands -/

/-- SP_FEED (43_spacepacket.md R104): E_FAULTED, or lock (R105) and the loop. -/
def execSpFeed (chunk : List Byte) (s : State) : Host.Outcome State Fault Refusal :=
  if s.block.sp.fault then .next (State.refuse .faulted s)
  else
    match SpUnit.pushBytes s.port.params chunk { s.block.sp with lock := true } with
    | .running u packets => .next (State.finish .ok false packets 0 { s.block with sp := u } s)
    | .faulted u packets code => .next (State.raiseFault code packets u s)
    | .refused r => .refused r

/-- The end of a stream: both accumulators cleared, SP_HDR_VALID and SP_DL 0, AwaitingHeader; SP_HDR and SP_LOCK stay
(43_spacepacket.md R114, R116). -/
def SpUnit.endStream (u : SpUnit) : SpUnit :=
  { u with hacc := u.hacc.clear, bacc := u.bacc.clear, hdrValid := false, dl := 0, state := .awaitingHeader }

/-- The residue's record: an empty residue gives one only under SP_FLUSH_EMPTY = EMIT (43_spacepacket.md R114). -/
def SpUnit.residue (f : FlushEmpty) (u : SpUnit) : List OutputUnit :=
  if u.hacc.bytes ++ u.bacc.bytes ≠ [] ∨ f = .emit then [.spResidue (u.hacc.bytes ++ u.bacc.bytes)] else []

/-- SP_FLUSH (43_spacepacket.md R114). -/
def execSpFlush (s : State) : Host.Outcome State Fault Refusal :=
  if s.block.sp.fault then .next (State.refuse .faulted s)
  else
    .next (State.finish .ok false (s.block.sp.residue s.port.params.flushEmpty) 0
      { s.block with sp := s.block.sp.endStream } s)

/-- SP_DISCARD (43_spacepacket.md R116). -/
def execSpDiscard (s : State) : Host.Outcome State Fault Refusal :=
  if s.block.sp.fault then .next (State.refuse .faulted s)
  else .next (State.finish .ok false [] 0 { s.block with sp := s.block.sp.endStream } s)

end Sys2Proof.Machine
end

