-- ==== Sys2Proof/Machine/Dispatch.lean ====
section
/-! DEFINITION. One arm per command, each one call of its meaning (30_encoding.md R49, R56). -/

namespace Sys2Proof.Machine

def exec (i : Instr) (s : State) : Host.Outcome State Fault Refusal :=
  match i with
  | .nop => Sys2Proof.Machine.execNop s
  | .reset => Sys2Proof.Machine.execReset s
  | .rdreg reg => Sys2Proof.Machine.execRdreg reg s
  | .wrreg reg data => Sys2Proof.Machine.execWrreg reg data s
  | .ccFeed chunk => Sys2Proof.Machine.execCcFeed chunk s
  | .ccDiscard => Sys2Proof.Machine.execCcDiscard s
  | .slipEnc chunk => Sys2Proof.Machine.execSlipEnc chunk s
  | .slipDec chunk => Sys2Proof.Machine.execSlipDec chunk s
  | .spFeed chunk => Sys2Proof.Machine.execSpFeed chunk s
  | .spFlush => Sys2Proof.Machine.execSpFlush s
  | .spDiscard => Sys2Proof.Machine.execSpDiscard s

end Sys2Proof.Machine
end

