-- ==== Sys2Proof/Machine/Fetch.lean ====
section
/-! DEFINITION. How the block takes its next command from the host (00_scope.md R4, 30_encoding.md R51, R56): four bytes of
word, TIME sampled as the word is accepted, then the data phase its opcode calls for. The reset input cuts a command that
is not complete (70_reset_and_hazards.md R132). -/

namespace Sys2Proof.Machine

/-- What comes of taking `n` bytes: the bytes, the stamp of the last of them and the events after; or the reset input first,
with the events after it; or not enough bytes yet. -/
inductive Taken where
  | got (bytes : List Byte) (time : Word) (rest : List HostEvent)
  | cut (rest : List HostEvent)
  | starved
  deriving DecidableEq, Repr

/-- A byte taken before the others. -/
def Taken.cons (b : Byte) : Taken → Taken
  | .got bytes time rest => .got (b :: bytes) time rest
  | .cut rest => .cut rest
  | .starved => .starved

/-- Take `n` bytes from the host's events; `time` is the stamp of the byte before them. -/
def takeBytes : Nat → Word → List HostEvent → Taken
  | 0, time, events => .got [] time events
  | _ + 1, _, [] => .starved
  | _ + 1, _, .resetInput :: rest => .cut rest
  | n + 1, _, .byte time b :: rest => (takeBytes n time rest).cons b

/-- What the block takes next: nothing yet, the reset input, or a whole command with the TIME sampled when its word was
accepted (41_cctalk.md R69). -/
inductive Fetched where
  | idle
  | resetInput (rest : List HostEvent)
  | command (bytes : List Byte) (now : Word) (rest : List HostEvent)
  deriving DecidableEq, Repr

/-- The length of the data phase that follows a word's bytes (30_encoding.md R51). -/
def dataPhaseOf : List Byte → Nat
  | [b0, b1, b2, b3] => dataPhase (wordOfBytes b0 b1 b2 b3)
  | _ => 0

/-- Take the next command or reset. A command whose last byte comes before the reset input is taken whole, so it runs and gives
its response first (DESIGN CHOICE, log 7: 70_reset_and_hazards.md R132 speaks only of a cut data phase and of a command that has
responded, not of a reset input between the last data byte and the response). -/
def State.fetch (s : State) : Fetched :=
  match takeBytes 4 s.port.now s.port.input with
  | .starved => .idle
  | .cut rest => .resetInput rest
  | .got word now afterWord =>
    match takeBytes (dataPhaseOf word) now afterWord with
    | .starved => .idle
    | .cut rest => .resetInput rest
    | .got data _ rest => .command (word ++ data) now rest

/-- The state in which a fetched command executes: its events consumed, TIME sampled. -/
def State.accept (now : Word) (rest : List HostEvent) (s : State) : State :=
  { s with port := { s.port with input := rest, now := now } }

/-- The reset input: reset values, no record, no response; a command it cut is gone (70_reset_and_hazards.md R132, R133). -/
def State.resetByInput (rest : List HostEvent) (s : State) : State :=
  State.resetBlock { s with port := { s.port with input := rest } }

/-- The bytes of a command line `i @time` on the command stream (30_encoding.md R57). -/
def sendAt (time : Word) (i : Instr) : List HostEvent := (encode i).map (HostEvent.byte time)

/-- Put an instruction of the opcode table, its bits above `nbits` zero, at the front of what the host will send.
Each byte is stamped with the last TIME sample, `port.now`, so the command samples that TIME again: DESIGN CHOICE (log 11), for
41_cctalk.md R69 leaves TIME free. -/
def State.sendTableWord (s : State) (nbits w : Nat) : State :=
  { s with
    port := { s.port with input := (tableBytes nbits w).map (HostEvent.byte s.port.now) ++ s.port.input } }

end Sys2Proof.Machine
end

