-- ==== Sys2Proof/Machine/Step.lean ====
section
/-! DEFINITION. Step of 30_encoding.md R56: take the next command with its data phase, decode it, and refuse it with E_ILLEGAL or
run its rule. A step also performs the reset input, and leaves everything as it is while no whole command has come. -/

namespace Sys2Proof.Machine

/-- One step of the block. -/
def step (s : State) : Host.Outcome State Fault Refusal :=
  match s.fetch with
  | .idle => .next s
  | .resetInput rest => .next (s.resetByInput rest)
  | .command bytes now rest =>
    match decode bytes with
    | .ok (i, _) => exec i (s.accept now rest)
    | .error _ => .next (State.refuse .illegal (s.accept now rest))

/-- `s` with the instruction of a table word sent next, so that the next step runs it, at the TIME last sampled (DESIGN CHOICE,
log 11). -/
def State.withFetchWord (s : State) (nbits w : Nat) : State := s.sendTableWord nbits w

end Sys2Proof.Machine
end

