-- ==== Sys2Proof/Safety.lean ====
section
/-! DEFINITION. The terms claims are stated in: the invariants the spec gives between commands, what a command's end looks like
from outside, and the spec's own second descriptions of a behaviour (the chunk-level loops of CC and SP, the SOUND
configurations of SLIP), which the machine's byte-serial rules are compared with. The machine uses none of these. -/

namespace Sys2Proof.Machine

/-! ### Invariants between commands -/

/-- Between primitives the cursor counts the contents and stays in the capacity (40_accumulator.md R59). -/
abbrev Acc.Wf (cap : Nat) (a : Acc) : Prop := a.cursor = a.bytes.length ∧ a.cursor ≤ cap

/-- CC_ACC holds no whole frame (10_state.md R29). -/
abbrev CcUnit.NoWholeFrame (u : CcUnit) : Prop :=
  u.acc.bytes.length < 2 ∨ u.acc.bytes.length < (u.acc.bytes.getD 1 0).toNat + 5

/-- The CC unit between commands: CC_ACC well formed, without a whole frame, and the timing state in step with the lock
(10_state.md R29, 41_cctalk.md R71, R76). -/
abbrev CcUnit.Inv (u : CcUnit) : Prop :=
  u.acc.Wf Config.ccBufCap ∧ u.NoWholeFrame
    ∧ (u.lock = false → u.acc.bytes = [] ∧ u.lastValid = false ∧ u.lastTime = 0 ∧ u.desyncCount = 0)
    ∧ (u.lock = true → (u.lastValid = true ↔ u.maxDelay ≠ 0))

/-- AwaitingHeader between commands (10_state.md R30, first case). -/
abbrev SpUnit.InHeader (u : SpUnit) : Prop :=
  u.state = .awaitingHeader ∧ u.hacc.bytes.length ≤ 5 ∧ u.bacc.bytes = [] ∧ u.hdrValid = false ∧ u.dl = 0

/-- AwaitingBody between commands (10_state.md R30, second case). -/
abbrev SpUnit.InBody (u : SpUnit) : Prop :=
  u.state = .awaitingBody ∧ u.hacc.bytes = [] ∧ u.hdrValid = true ∧ u.secLen ≤ u.dl.toNat
    ∧ u.dl.toNat ≤ Config.spBodyCap ∧ u.bacc.bytes.length < u.dl.toNat

/-- What an SP fault leaves: one of the two causes that can occur, with the state of 60_exceptions.md R126. -/
abbrev SpUnit.Faulted (u : SpUnit) : Prop :=
  u.lock = true ∧ u.state = .awaitingHeader ∧ u.hacc.bytes = [] ∧ u.bacc.bytes = [] ∧ u.hdrValid = true
    ∧ ((u.err = 0x80 ∧ u.dl.toNat < u.secLen)
      ∨ (u.err = 0x82 ∧ u.secLen ≤ u.dl.toNat ∧ Config.spBodyCap < u.dl.toNat))

/-- The SP unit between commands. -/
abbrev SpUnit.Inv (u : SpUnit) : Prop :=
  u.hacc.Wf Config.spHdrLen ∧ u.bacc.Wf Config.spBodyCap
    ∧ (u.fault = false → u.err = 0 ∧ (u.InHeader ∨ u.InBody))
    ∧ (u.fault = true → u.Faulted)
    ∧ (u.lock = false → u.InHeader ∧ u.hacc.bytes = [] ∧ u.hdr = ⟨0, 0, 0, 0, 0, 0⟩)

/-- The machine's invariant between steps. -/
abbrev State.Inv (s : State) : Prop := s.block.cc.Inv ∧ s.block.sp.Inv

/-! ### A command's end, seen from outside -/

/-- RESP0 from its three fields (30_encoding.md R53). -/
def respWord (code flags : Byte) (nout : Nat) : Word := code ++ flags ++ BitVec.ofNat 16 nout

/-- `s` after a command that left the block at `b`, counted, gave the response `r0 r1` and sent `records`: the host's inputs
and parameters are as they were. -/
def State.ended (s : State) (b : Block) (r0 r1 : Word) (records : List Record) : State :=
  { block := { b with cmdCount := s.block.cmdCount + 1 }
    port :=
      { s.port with
        responses := s.port.responses ++ [⟨r0, r1⟩]
        output := s.port.output ++ records } }

/-- A CCFrame, SlipEnc, SlipDec or SpResidue record (30_encoding.md R54): TAG, the length of BODY, BODY. -/
def bytesRecord (tag : Byte) (body : List Byte) : Record := ⟨tag, BitVec.ofNat 24 body.length, body⟩

/-- The number a byte sequence carries, most significant byte first (20_memory.md R36). -/
def bigEndian (bytes : List Byte) : Nat := bytes.foldl (fun n b => 256 * n + b.toNat) 0

/-- Bytes the host sends, each with the value TIME has when it arrives (41_cctalk.md R69). -/
def stamped (stamps : List Word) (bytes : List Byte) : List HostEvent := List.zipWith HostEvent.byte stamps bytes

/-! ### CC: the chunk-level loop -/

/-- ChunkLevel of 41_cctalk.md R73 on a buffer: the frames and what stays, in at most `fuel` rounds. -/
def ccFrames : Nat → List Byte → List (List Byte) × List Byte
  | 0, buffer => ([], buffer)
  | fuel + 1, buffer =>
    if 2 ≤ buffer.length ∧ (buffer.getD 1 0).toNat + 5 ≤ buffer.length then
      let later := ccFrames fuel (buffer.drop ((buffer.getD 1 0).toNat + 5))
      (buffer.take ((buffer.getD 1 0).toNat + 5) :: later.1, later.2)
    else ([], buffer)

/-- The loop run to its end: each round takes at least 5 bytes, so as many rounds as bytes are enough. -/
def ccFramesOf (buffer : List Byte) : List (List Byte) × List Byte := ccFrames buffer.length buffer

/-- Chunks fed to CC one after another, each with its TIME sample; `none` if a timeout check discards or a command does
not complete (41_cctalk.md R79). -/
def ccFeedAll : List (Word × List Byte) → State → Option State
  | [], s => some s
  | (now, chunk) :: rest, s =>
    if s.block.cc.discards now then none
    else
      match exec (.ccFeed chunk) { s with port := { s.port with now := now } } with
      | .next t => ccFeedAll rest t
      | .fault _ => none
      | .refused _ => none

/-- Every gap between successive TIME samples, the first from `last`, is at most `limit` ms. -/
def gapsWithin (limit : Half) : Word → List Word → Prop
  | _, [] => True
  | last, now :: later => (now - last).toNat ≤ limit.toNat ∧ gapsWithin limit now later

/-! ### SLIP: SOUND configurations -/

/-- The substitutes of the escape classes that exist are pairwise different (42_slip.md R97). -/
abbrev SlipUnit.Sound (u : SlipUnit) : Prop :=
  (¬(u.startEscaped = true ∧ u.eClass = true) ∨ u.escStart ≠ u.escEnd)
    ∧ (¬(u.startEscaped = true ∧ u.xClass = true) ∨ u.escStart ≠ u.escEsc)
    ∧ (¬(u.eClass = true ∧ u.xClass = true) ∨ u.escEnd ≠ u.escEsc)

/-! ### SP: what it holds, and the chunk-level transitions -/

/-- The bytes of its stream that SP holds: a partial header, or a parsed header and a partial body (10_state.md R31). -/
def SpUnit.held (u : SpUnit) : List Byte :=
  match u.state with
  | .awaitingHeader => u.hacc.bytes
  | .awaitingBody => headerBytes u.hdr ++ u.bacc.bytes

/-- The source's transitions as 43_spacepacket.md R112 lists them, on a whole chunk, in at most `fuel` of them: the unit, the
packets, and the fault that ended the command if one did. -/
def spChunkLevel (p : Params) : Nat → List Byte → SpUnit → SpUnit × List OutputUnit × Option Byte
  | 0, _, u => (u, [], none)
  | fuel + 1, chunk, u =>
    match u.state with
    | .awaitingHeader =>
      let buffer := u.hacc.bytes ++ chunk
      if buffer.length < 6 then ({ u with hacc := ⟨buffer, buffer.length⟩ }, [], none)
      else
        let h := headerOfBytes (buffer.take 6)
        let v : SpUnit := { u with hacc := ⟨[], 0⟩, hdr := h, hdrValid := true, dl := spDlFn p h }
        if v.dl.toNat < v.tcLen.toNat + v.ancLen.toNat then (v, [], some 0x80)
        else if 65536 < v.dl.toNat then (v, [], some 0x82)
        else spChunkLevel p fuel (buffer.drop 6) { v with state := .awaitingBody }
    | .awaitingBody =>
      let body := u.bacc.bytes ++ chunk
      if body.length < u.dl.toNat then ({ u with bacc := ⟨body, body.length⟩ }, [], none)
      else
        let later :=
          spChunkLevel p fuel (body.drop u.dl.toNat)
            { u with bacc := ⟨[], 0⟩, hdrValid := false, dl := 0, state := .awaitingHeader }
        (later.1, u.packet (body.take u.dl.toNat) :: later.2.1, later.2.2)

/-- The transitions run to their end: two for each byte and two more are enough. -/
def spChunkLevelOf (p : Params) (chunk : List Byte) (u : SpUnit) : SpUnit × List OutputUnit × Option Byte :=
  spChunkLevel p (2 * chunk.length + 2) chunk u

end Sys2Proof.Machine
end

