-- ==== Sys2Proof/Certificates/Slice0/Obligations.lean ====
section
/-! DEFINITION. The statements for the provers. Each says what the spec's rules say of the machine; `State.ended` of Safety.lean
is a command's end seen from outside, so an equation `exec i s = .next (s.ended …)` gives the instruction's result, its
completion and its frame at once: every element not named keeps its value. -/

open Sys2Proof Sys2Proof.Machine

/-! ### Reset and the invariants -/

/-- 10_state.md R32: the value of every element right after reset. -/
def Obligations.ResetHoldsTheStatedValues : Prop :=
  State.reset.block =
    { cmdCount := 0x00000000
      cc := { acc := ⟨[], 0⟩, maxDelay := 50, lastTime := 0, lastValid := false, desyncCount := 0, lock := false }
      slip :=
        { ctrl := 0b000, startByte := 0x00, escByte := 0xDB, endByte := 0xC0, escStart := 0x00, escEnd := 0xDC,
          escEsc := 0xDD, lock := false }
      sp :=
        { state := .awaitingHeader, hacc := ⟨[], 0⟩, bacc := ⟨[], 0⟩, hdr := ⟨0, 0, 0, 0, 0, 0⟩, hdrValid := false,
          dl := 0, tcLen := 0, ancLen := 0, lock := false, fault := false, err := 0x00 } }

/-- The invariant holds right after reset. -/
def Obligations.InvariantAtReset : Prop := State.reset.Inv

/-- 10_state.md R29, R30, 40_accumulator.md R59: every step keeps the invariant, from every state that meets it. -/
def Obligations.StepKeepsInvariant : Prop :=
  ∀ s t : State, s.Inv → step s = .next t → t.Inv

/-- 30_encoding.md R56: a step from a state that meets the invariant answers a next state; no accumulator precondition breaks. -/
def Obligations.StepAlwaysAnswersNext : Prop :=
  ∀ s : State, s.Inv → ∃ t, step s = .next t

/-- Every run, of any length and over any input, goes on and keeps the invariant. -/
def Obligations.EveryRunCompletes : Prop :=
  ∀ (k : Nat) (s : State), s.Inv → ∃ t : State, Host.Core.run Sys2Proof.core k s = .next t ∧ t.Inv

/-! ### Encoding -/

/-- 30_encoding.md R45 to R50: a well-formed command, encoded, is decoded to itself, whatever bytes follow. -/
def Obligations.DecodeInvertsEncode : Prop :=
  ∀ (i : Instr) (rest : List Byte), i.WellFormed → decode (encode i ++ rest) = .ok (i, rest)

/-- 30_encoding.md R50: what the decoder accepts is the encoding of a well-formed command, and the bytes after it. -/
def Obligations.EncodeInvertsDecode : Prop :=
  ∀ (bytes rest : List Byte) (i : Instr), decode bytes = .ok (i, rest) → i.WellFormed ∧ encode i ++ rest = bytes

/-- 30_encoding.md R49, R50: the words of each command, and no other word is a command. -/
def Obligations.DecodeWordFollowsTheOpcodeMap : Prop :=
  ∀ (w : Word) (chunk : List Byte) (i : Instr),
    decodeWord w chunk = .ok i ↔
      (i = .nop ∧ w = 0x00000000) ∨ (i = .reset ∧ w = 0x01000000)
        ∨ (∃ reg : Byte, i = .rdreg reg ∧ w = 0x02#8 ++ reg ++ 0x0000#16)
        ∨ (∃ (reg : Byte) (data : Half), i = .wrreg reg data ∧ w = 0x03#8 ++ reg ++ data)
        ∨ (∃ len : Half, i = .ccFeed chunk ∧ w = 0x10#8 ++ 0x00#8 ++ len)
        ∨ (i = .ccDiscard ∧ w = 0x11000000)
        ∨ (∃ len : Half, i = .slipEnc chunk ∧ w = 0x20#8 ++ 0x00#8 ++ len)
        ∨ (∃ len : Half, i = .slipDec chunk ∧ w = 0x21#8 ++ 0x00#8 ++ len)
        ∨ (∃ len : Half, i = .spFeed chunk ∧ w = 0x30#8 ++ 0x00#8 ++ len)
        ∨ (i = .spFlush ∧ w = 0x31000000) ∨ (i = .spDiscard ∧ w = 0x32000000)

/-- Words of 95_test_vectors.md V1, V10, V12, V26 and P3, byte for byte, decode to the commands they stand for. -/
def Obligations.ListedWordsDecode : Prop :=
  decode [0x10, 0x00, 0x00, 0x05, 0x01, 0x00, 0x02, 0x03, 0x04] = .ok (.ccFeed [0x01, 0x00, 0x02, 0x03, 0x04], [])
    ∧ decode [0x03, 0x10, 0x00, 0x00] = .ok (.wrreg 0x10 0x0000, [])
    ∧ decode [0x21, 0x00, 0x00, 0x03, 0xDB, 0xDC, 0xC0] = .ok (.slipDec [0xDB, 0xDC, 0xC0], [])
    ∧ decode [0x02, 0x23, 0x00, 0x00] = .ok (.rdreg 0x23, [])
    ∧ decode [0x31, 0x00, 0x00, 0x00] = .ok (.spFlush, [])

/-! ### The step -/

/-- 30_encoding.md R56, 41_cctalk.md R69: when the bytes of a well-formed command come next, the step is `exec` of it, with those
bytes consumed and TIME sampled at the last byte of its word. The one stream of bytes and the moment of the sample are the model's
readings (logs 4, 5), and that this holds when the reset input comes next is its choice (log 7). -/
def Obligations.StepRunsTheDecodedCommand : Prop :=
  ∀ (s : State) (i : Instr) (stamps : List Word) (rest : List HostEvent),
    i.WellFormed → stamps.length = (encode i).length → s.port.input = stamped stamps (encode i) ++ rest →
      step s = exec i { s with port := { s.port with input := rest, now := stamps.getD 3 0 } }

/-- 30_encoding.md R51, R52: an unknown opcode is refused with E_ILLEGAL and takes no data phase: the bytes after its word are
the next command's. The one stream of bytes and the moment of the TIME sample are the model's readings (logs 4, 5), and that the
refusal is given when the reset input comes next is its choice (log 7). -/
def Obligations.UnknownOpcodeIsRefusedWithoutDataPhase : Prop :=
  ∀ (s : State) (w : Word) (stamps : List Word) (rest : List HostEvent),
    w.extractLsb' 24 8 ∉ ([0x00, 0x01, 0x02, 0x03, 0x10, 0x11, 0x20, 0x21, 0x30, 0x31, 0x32] : List Byte) →
      stamps.length = 4 → s.port.input = stamped stamps (bytesOfWord w) ++ rest →
        step s
          = .next (({ s with port := { s.port with input := rest, now := stamps.getD 3 0 } } : State).ended
              s.block 0x01000000 0 [])

/-- 30_encoding.md R50, R51, 60_exceptions.md R123: a known opcode with nonzero reserved bits is refused with E_ILLEGAL; a format C
one takes its LEN data bytes and ignores them. The one stream of bytes and the moment of the TIME sample are the model's readings
(logs 4, 5), and that the refusal is given when the reset input comes next is its choice (log 7). -/
def Obligations.ReservedBitsAreRefused : Prop :=
  ∀ (s : State) (w : Word) (data : List Byte) (stamps : List Word) (rest : List HostEvent),
    (w.extractLsb' 24 8 ∈ ([0x00, 0x01, 0x11, 0x31, 0x32] : List Byte) ∧ w.extractLsb' 0 24 ≠ 0 ∧ data = [])
        ∨ (w.extractLsb' 24 8 = 0x02 ∧ w.extractLsb' 0 16 ≠ 0 ∧ data = [])
        ∨ (w.extractLsb' 24 8 ∈ ([0x10, 0x20, 0x21, 0x30] : List Byte) ∧ w.extractLsb' 16 8 ≠ 0
          ∧ data.length = (w.extractLsb' 0 16).toNat) →
      stamps.length = 4 + data.length → s.port.input = stamped stamps (bytesOfWord w ++ data) ++ rest →
        step s
          = .next (({ s with port := { s.port with input := rest, now := stamps.getD 3 0 } } : State).ended
              s.block 0x01000000 0 [])

/-- DEDUCED, log 6: while a command's word or data phase has not come whole, the step leaves everything as it is
(60_exceptions.md R131). -/
def Obligations.StepWaitsForTheWholeCommand : Prop :=
  ∀ (s : State) (i : Instr) (bytes : List Byte) (stamps : List Word),
    i.WellFormed → bytes <+: encode i → bytes ≠ encode i → stamps.length = bytes.length →
      s.port.input = stamped stamps bytes → step s = .next s

/-- 70_reset_and_hazards.md R132, R133, with logs 5 and 7: the reset input puts every element at its reset value; a command it
cuts off gives no response and no record, and what follows is a new command. -/
def Obligations.ResetInputAbandonsACommand : Prop :=
  ∀ (s : State) (i : Instr) (bytes : List Byte) (stamps : List Word) (rest : List HostEvent),
    i.WellFormed → bytes <+: encode i → bytes ≠ encode i → stamps.length = bytes.length →
      s.port.input = stamped stamps bytes ++ .resetInput :: rest →
        step s = .next { block := Block.reset, port := { s.port with input := rest } }

/-! ### What holds of every command -/

/-- 10_state.md R9: every command adds one to CMD_COUNT, modulo 2^32, but RESET leaves it 0. -/
def Obligations.EveryCommandIsCounted : Prop :=
  ∀ (i : Instr) (s t : State), exec i s = .next t →
    t.block.cmdCount = if i = .reset then 0 else s.block.cmdCount + 1

/-- 30_encoding.md R53, 60_exceptions.md R122: every command gives exactly one response; CODE is one of the codes listed, FLAGS[7:1]
is 0, NOUT is the number of records it sent (as 16 bits), and RDATA is 0 but for an RDREG that answers OK. -/
def Obligations.EveryCommandGivesOneResponse : Prop :=
  ∀ (i : Instr) (s t : State), exec i s = .next t →
    ∃ (r : Response) (records : List Record),
      t.port.responses = s.port.responses ++ [r] ∧ t.port.output = s.port.output ++ records
        ∧ r.resp0.extractLsb' 0 16 = BitVec.ofNat 16 records.length ∧ r.resp0.extractLsb' 17 7 = 0
        ∧ r.resp0.extractLsb' 24 8
            ∈ ([0x00, 0x01, 0x02, 0x03, 0x04, 0x05, 0x06, 0x07, 0x80, 0x81, 0x82] : List Byte)
        ∧ ((∀ reg, i ≠ .rdreg reg) ∨ r.resp0.extractLsb' 24 8 ≠ 0 → r.resp1 = 0)

/-- 30_encoding.md R53: the number of records of one command fits NOUT: at most 13158 for CC_FEED, 10923 for SP_FEED, and 1 for any
other command. -/
def Obligations.RecordCountFitsNout : Prop :=
  ∀ (i : Instr) (s t : State) (records : List Record),
    s.Inv → i.WellFormed → exec i s = .next t → t.port.output = s.port.output ++ records →
      records.length ≤ 13158 ∧ (∀ c, i = .spFeed c → records.length ≤ 10923)
        ∧ ((∀ c, i ≠ .ccFeed c ∧ i ≠ .spFeed c) → records.length ≤ 1)

/-- 30_encoding.md R54: LEN of every record is the length of its BODY: no BODY reaches 2^24 bytes. -/
def Obligations.RecordLengthIsExact : Prop :=
  ∀ (i : Instr) (s t : State) (records : List Record),
    s.Inv → i.WellFormed → exec i s = .next t → t.port.output = s.port.output ++ records →
      ∀ r ∈ records, r.len.toNat = r.body.length

/-- 20_memory.md R36, case by case: most significant byte first are LEN of a record, both words of a response on a byte-wide link
(RESP0 before RESP1: DEDUCED, log 17), a command's word, TCLEN and ANCLEN of an SpPacket, and the field the default SP_DL_FN reads.
Each is told by the number the bytes carry. -/
def Obligations.NumbersOnTheWireAreBigEndian : Prop :=
  (∀ r : Record,
      r.wire.take 1 = [r.tag] ∧ bigEndian ((r.wire.drop 1).take 3) = r.len.toNat ∧ r.wire.drop 4 = r.body)
    ∧ (∀ r : Response,
      r.wire.length = 8 ∧ bigEndian (r.wire.take 4) = r.resp0.toNat ∧ bigEndian (r.wire.drop 4) = r.resp1.toNat)
    ∧ (∀ i : Instr, bigEndian ((encode i).take 4) = (encodeWord i).toNat)
    ∧ (∀ b0 b1 b2 b3 : Byte, (wordOfBytes b0 b1 b2 b3).toNat = bigEndian [b0, b1, b2, b3])
    ∧ (∀ (hdr : Header) (tc anc : Option (List Byte)) (data : List Byte),
      (tc.getD []).length < 65536 → (anc.getD []).length < 65536 →
        let body := (OutputUnit.spPacket hdr tc anc data).body
        bigEndian ((body.drop 1).take 2) = (tc.getD []).length
          ∧ bigEndian ((body.drop 3).take 2) = (anc.getD []).length)
    ∧ ∀ h : Header, (spDlDefault h).toNat = bigEndian [h.b4, h.b5] + 1

/-- 10_state.md R10: DESYNC is 1 exactly for a CC_FEED whose timeout check discards at least one byte. -/
def Obligations.DesyncFlagMarksLostBytes : Prop :=
  ∀ (i : Instr) (s t : State) (r : Response),
    s.Inv → exec i s = .next t → t.port.responses = s.port.responses ++ [r] →
      (r.resp0.getLsbD 16 = true ↔
        (∃ chunk, i = .ccFeed chunk) ∧ s.block.cc.maxDelay ≠ 0 ∧ s.block.cc.lastValid = true
          ∧ s.block.cc.maxDelay.toNat < (s.port.now - s.block.cc.lastTime).toNat ∧ s.block.cc.acc.bytes ≠ [])

/-- 10_state.md R12: a unit's lock is set by its data commands (SP_FEED only when it is accepted), cleared by RESET, and left by
every other command. -/
def Obligations.LocksFollowDataCommands : Prop :=
  ∀ (i : Instr) (s t : State), exec i s = .next t →
    (t.block.cc.lock = true ↔ i ≠ .reset ∧ (s.block.cc.lock = true ∨ ∃ c, i = .ccFeed c))
      ∧ (t.block.slip.lock = true ↔ i ≠ .reset ∧ (s.block.slip.lock = true ∨ ∃ c, i = .slipEnc c ∨ i = .slipDec c))
      ∧ (t.block.sp.lock = true ↔
          i ≠ .reset ∧ (s.block.sp.lock = true ∨ ∃ c, i = .spFeed c ∧ s.block.sp.fault = false))

/-- 10_state.md R12, 70_reset_and_hazards.md R136: while a unit's lock is 1, no command but RESET changes its configuration. -/
def Obligations.LockedConfigurationIsImmutable : Prop :=
  ∀ (i : Instr) (s t : State), i ≠ .reset → exec i s = .next t →
    (s.block.cc.lock = true → t.block.cc.maxDelay = s.block.cc.maxDelay)
      ∧ (s.block.slip.lock = true → t.block.slip = s.block.slip)
      ∧ (s.block.sp.lock = true →
          t.block.sp.tcLen = s.block.sp.tcLen ∧ t.block.sp.ancLen = s.block.sp.ancLen)

/-- 00_scope.md R2: a command of one unit leaves the other units' state, and what it does to its own unit, its response and its
records depend on no other unit's state. -/
def Obligations.UnitsShareNoState : Prop :=
  ∀ (i : Instr) (s s' t : State), s.port = s'.port → exec i s = .next t →
    (((∃ c, i = .ccFeed c) ∨ i = .ccDiscard) → s.block.cc = s'.block.cc →
        t.block.slip = s.block.slip ∧ t.block.sp = s.block.sp
          ∧ ∃ t', exec i s' = .next t' ∧ t'.block.cc = t.block.cc ∧ t'.port = t.port)
      ∧ ((∃ c, i = .slipEnc c ∨ i = .slipDec c) → s.block.slip = s'.block.slip →
        t.block.cc = s.block.cc ∧ t.block.sp = s.block.sp
          ∧ ∃ t', exec i s' = .next t' ∧ t'.block.slip = t.block.slip ∧ t'.port = t.port)
      ∧ (((∃ c, i = .spFeed c) ∨ i = .spFlush ∨ i = .spDiscard) → s.block.sp = s'.block.sp →
        t.block.cc = s.block.cc ∧ t.block.slip = s.block.slip
          ∧ ∃ t', exec i s' = .next t' ∧ t'.block.sp = t.block.sp ∧ t'.port = t.port)

/-! ### Block control -/

/-- 44_control.md R117: NOP changes CMD_COUNT only, and answers OK. -/
def Obligations.NopOnlyCounts : Prop :=
  ∀ s : State, exec .nop s = .next (s.ended s.block 0x00000000 0 [])

/-- 44_control.md R118: RESET puts every element at its reset value, CMD_COUNT at 0, emits no record and answers OK. -/
def Obligations.ResetCommandResetsTheBlock : Prop :=
  ∀ s : State,
    exec .reset s
      = .next { block := Block.reset, port := { s.port with responses := s.port.responses ++ [⟨0, 0⟩] } }

/-- 44_control.md R119, 10_state.md R11, R22, R26, R27: RDREG answers the value of each of the 21 registers, and changes nothing
but CMD_COUNT, which it reads before its own increment. -/
def Obligations.RdregReadsEveryRegister : Prop :=
  ∀ s : State, s.Inv →
    ∀ row ∈
      ([(0x00, BitVec.ofNat 32 (s.block.cc.lock.toNat + 2 * s.block.slip.lock.toNat + 4 * s.block.sp.lock.toNat
            + 8 * (decide (s.block.sp.state = .awaitingBody)).toNat + 16 * s.block.sp.fault.toNat
            + 32 * s.block.cc.lastValid.toNat + 64 * s.block.sp.hdrValid.toNat)),
        (0x01, BitVec.ofNat 32 s.block.sp.err.toNat),
        (0x02, s.block.cmdCount),
        (0x10, BitVec.ofNat 32 s.block.cc.maxDelay.toNat),
        (0x11, BitVec.ofNat 32 s.block.cc.acc.bytes.length),
        (0x12, s.block.cc.lastTime),
        (0x13, s.block.cc.desyncCount),
        (0x20, BitVec.ofNat 32 s.block.slip.ctrl.toNat),
        (0x21, BitVec.ofNat 32 s.block.slip.startByte.toNat),
        (0x22, BitVec.ofNat 32 s.block.slip.escByte.toNat),
        (0x23, BitVec.ofNat 32 s.block.slip.endByte.toNat),
        (0x24, BitVec.ofNat 32 s.block.slip.escStart.toNat),
        (0x25, BitVec.ofNat 32 s.block.slip.escEnd.toNat),
        (0x26, BitVec.ofNat 32 s.block.slip.escEsc.toNat),
        (0x30, BitVec.ofNat 32 s.block.sp.tcLen.toNat),
        (0x31, BitVec.ofNat 32 s.block.sp.ancLen.toNat),
        (0x32, BitVec.ofNat 32 s.block.sp.hacc.bytes.length),
        (0x33, BitVec.ofNat 32 s.block.sp.bacc.bytes.length),
        (0x34, s.block.sp.dl),
        (0x35, BitVec.ofNat 32 (s.block.sp.hdr.b0.toNat * 2 ^ 24 + s.block.sp.hdr.b1.toNat * 2 ^ 16
            + s.block.sp.hdr.b2.toNat * 2 ^ 8 + s.block.sp.hdr.b3.toNat)),
        (0x36, BitVec.ofNat 32 (s.block.sp.hdr.b4.toNat * 2 ^ 8 + s.block.sp.hdr.b5.toNat))] : List (Byte × Word)),
      exec (.rdreg row.1) s = .next (s.ended s.block 0x00000000 row.2 [])

/-- 10_state.md R26: an address outside the map is refused with E_BADREG, for reads and writes alike. -/
def Obligations.UnimplementedAddressIsBadreg : Prop :=
  ∀ (s : State) (reg : Byte) (data : Half),
    reg ∉ ([0x00, 0x01, 0x02, 0x10, 0x11, 0x12, 0x13, 0x20, 0x21, 0x22, 0x23, 0x24, 0x25, 0x26, 0x30, 0x31, 0x32,
        0x33, 0x34, 0x35, 0x36] : List Byte) →
      exec (.rdreg reg) s = .next (s.ended s.block 0x02000000 0 [])
        ∧ exec (.wrreg reg data) s = .next (s.ended s.block 0x02000000 0 [])

/-- 44_control.md R120, R121: while its unit's lock is 0, WRREG stores a value that fits in each of the ten RW registers, and
changes nothing else but CMD_COUNT. -/
def Obligations.WrregStoresConfiguration : Prop :=
  ∀ (s : State) (data : Half),
    (s.block.cc.lock = false →
        exec (.wrreg 0x10 data) s
          = .next (s.ended { s.block with cc := { s.block.cc with maxDelay := data } } 0 0 []))
      ∧ (s.block.slip.lock = false → data.toNat < 8 →
        exec (.wrreg 0x20 data) s
          = .next (s.ended { s.block with slip := { s.block.slip with ctrl := BitVec.ofNat 3 data.toNat } } 0 0 []))
      ∧ (s.block.slip.lock = false → data.toNat < 256 →
        exec (.wrreg 0x21 data) s
            = .next (s.ended { s.block with slip := { s.block.slip with startByte := BitVec.ofNat 8 data.toNat } } 0 0 [])
          ∧ exec (.wrreg 0x22 data) s
            = .next (s.ended { s.block with slip := { s.block.slip with escByte := BitVec.ofNat 8 data.toNat } } 0 0 [])
          ∧ exec (.wrreg 0x23 data) s
            = .next (s.ended { s.block with slip := { s.block.slip with endByte := BitVec.ofNat 8 data.toNat } } 0 0 [])
          ∧ exec (.wrreg 0x24 data) s
            = .next (s.ended { s.block with slip := { s.block.slip with escStart := BitVec.ofNat 8 data.toNat } } 0 0 [])
          ∧ exec (.wrreg 0x25 data) s
            = .next (s.ended { s.block with slip := { s.block.slip with escEnd := BitVec.ofNat 8 data.toNat } } 0 0 [])
          ∧ exec (.wrreg 0x26 data) s
            = .next (s.ended { s.block with slip := { s.block.slip with escEsc := BitVec.ofNat 8 data.toNat } } 0 0 []))
      ∧ (s.block.sp.lock = false →
        exec (.wrreg 0x30 data) s
            = .next (s.ended { s.block with sp := { s.block.sp with tcLen := data } } 0 0 [])
          ∧ exec (.wrreg 0x31 data) s
            = .next (s.ended { s.block with sp := { s.block.sp with ancLen := data } } 0 0 []))

/-- 44_control.md R120, R121: the refusals of WRREG to an implemented register, in their order: read-only, then locked whatever the
value, then out of range. -/
def Obligations.WrregRefusalsInOrder : Prop :=
  ∀ (s : State) (reg : Byte) (data : Half),
    (reg ∈ ([0x00, 0x01, 0x02, 0x11, 0x12, 0x13, 0x32, 0x33, 0x34, 0x35, 0x36] : List Byte) →
        exec (.wrreg reg data) s = .next (s.ended s.block 0x03000000 0 []))
      ∧ ((reg = 0x10 ∧ s.block.cc.lock = true)
          ∨ (reg ∈ ([0x20, 0x21, 0x22, 0x23, 0x24, 0x25, 0x26] : List Byte) ∧ s.block.slip.lock = true)
          ∨ (reg ∈ ([0x30, 0x31] : List Byte) ∧ s.block.sp.lock = true) →
        exec (.wrreg reg data) s = .next (s.ended s.block 0x04000000 0 []))
      ∧ (s.block.slip.lock = false
          ∧ ((reg = 0x20 ∧ 8 ≤ data.toNat)
            ∨ (reg ∈ ([0x21, 0x22, 0x23, 0x24, 0x25, 0x26] : List Byte) ∧ 256 ≤ data.toNat)) →
        exec (.wrreg reg data) s = .next (s.ended s.block 0x05000000 0 []))

/-! ### CC -/

/-- 41_cctalk.md R67, R70 to R73, R75: CC_FEED completes, with the frames of the chunk-level loop run on what the timeout check left of
CC_ACC and then the chunk; the remainder stays in CC_ACC, and the sample, the counter, the flag and the lock are as the rules say. -/
def Obligations.CcFeedEqualsChunkLevelExtraction : Prop :=
  ∀ (s : State) (chunk : List Byte), s.Inv →
    let u := s.block.cc
    let lost : Bool :=
      decide (u.maxDelay ≠ 0 ∧ u.lastValid = true ∧ u.maxDelay.toNat < (s.port.now - u.lastTime).toNat)
    let desync : Bool := lost && decide (u.acc.bytes ≠ [])
    let r := ccFramesOf ((if lost then [] else u.acc.bytes) ++ chunk)
    exec (.ccFeed chunk) s
      = .next (s.ended
          { s.block with
            cc :=
              { u with
                acc := ⟨r.2, r.2.length⟩
                lastTime := if u.maxDelay = 0 then u.lastTime else s.port.now
                lastValid := u.lastValid || decide (u.maxDelay ≠ 0)
                desyncCount := if desync then u.desyncCount + 1 else u.desyncCount
                lock := true } }
          (respWord 0x00 (if desync then 0x01 else 0x00) r.1.length) 0 (r.1.map (bytesRecord 0x01)))

/-- 41_cctalk.md R74, 10_state.md R31: every frame of a CC_FEED is as long as its second byte says plus 5, and the frames and then what
CC_ACC holds are exactly what CC_ACC held after the timeout check and then the chunk. -/
def Obligations.CcFeedConservesBytes : Prop :=
  ∀ (s : State) (chunk : List Byte), s.Inv →
    ∃ (t : State) (frames : List (List Byte)),
      exec (.ccFeed chunk) s = .next t ∧ t.port.output = s.port.output ++ frames.map (bytesRecord 0x01)
        ∧ (∀ f ∈ frames, f.length = (f.getD 1 0).toNat + 5)
        ∧ frames.flatten ++ t.block.cc.acc.bytes
          = (if s.block.cc.discards s.port.now then [] else s.block.cc.acc.bytes) ++ chunk

/-- 41_cctalk.md R79: chunk-boundary independence. Two ways to split one byte stream, fed from the same state with no timeout
discard in either run, give the same frames and the same CC_ACC. With CC_MAXDELAY = 0, or with every gap between TIME samples
at most CC_MAXDELAY, no timeout check discards and every CC_FEED completes. -/
def Obligations.CcChunkBoundaryIndependence : Prop :=
  (∀ (s t t' : State) (xs ys : List (Word × List Byte)), s.Inv →
      (xs.map Prod.snd).flatten = (ys.map Prod.snd).flatten →
        ccFeedAll xs s = some t → ccFeedAll ys s = some t' →
          t.port.output = t'.port.output ∧ t.block.cc.acc = t'.block.cc.acc)
    ∧ ∀ (s : State) (xs : List (Word × List Byte)), s.Inv →
        (s.block.cc.maxDelay = 0
            ∨ ∃ first : Word, (s.block.cc.lastValid = true → first = s.block.cc.lastTime)
              ∧ gapsWithin s.block.cc.maxDelay first (xs.map Prod.fst)) →
          ∃ t, ccFeedAll xs s = some t

/-- 41_cctalk.md R80: CC_DISCARD empties CC_ACC and changes nothing else but CMD_COUNT. -/
def Obligations.CcDiscardEmptiesTheBuffer : Prop :=
  ∀ s : State,
    exec .ccDiscard s
      = .next (s.ended { s.block with cc := { s.block.cc with acc := ⟨[], 0⟩ } } 0x00000000 0 [])

/-! ### SLIP -/

/-- 42_slip.md R83 to R88: SLIP_ENC sets SLIP_LOCK and emits the one frame: END under the quirk, START when configured, each byte escaped
by the first test that holds, END; no record at all for an empty chunk under the quirk. -/
def Obligations.SlipEncEmitsTheEscapedFrame : Prop :=
  ∀ (s : State) (chunk : List Byte),
    let u := s.block.slip
    let q := u.ctrl.getLsbD 2
    let st := u.ctrl.getLsbD 0
    let se := u.ctrl.getLsbD 0 && u.ctrl.getLsbD 1
    let esc := fun b : Byte =>
      if se = true ∧ b = u.startByte then [u.escByte, u.escStart]
      else if b = u.endByte then [u.escByte, u.escEnd]
      else if b = u.escByte then [u.escByte, u.escEsc]
      else [b]
    let out := (if q then [u.endByte] else []) ++ (if st then [u.startByte] else []) ++ (chunk.map esc).flatten
      ++ [u.endByte]
    exec (.slipEnc chunk) s
      = .next (s.ended { s.block with slip := { u with lock := true } }
          (respWord 0x00 0x00 (if q = true ∧ chunk = [] then 0 else 1)) 0
          (if q = true ∧ chunk = [] then [] else [bytesRecord 0x02 out]))

/-- 42_slip.md R89: the length of SLIP_ENC's output, when there is one, is Q + S + n + e + 1, with e the number of bytes escaped; so
at most 2n + 3, and exactly that when Q = S = 1 and every byte is escaped. -/
def Obligations.SlipEncOutputLength : Prop :=
  ∀ (s : State) (chunk : List Byte),
    let u := s.block.slip
    let q := u.ctrl.getLsbD 2
    let st := u.ctrl.getLsbD 0
    let e := chunk.countP fun b =>
      (st && u.ctrl.getLsbD 1 && b == u.startByte) || b == u.endByte || b == u.escByte
    (chunk ≠ [] ∨ q = false) →
      ∃ (t : State) (out : List Byte),
        exec (.slipEnc chunk) s = .next t ∧ t.port.output = s.port.output ++ [bytesRecord 0x02 out]
          ∧ out.length = q.toNat + st.toNat + chunk.length + e + 1 ∧ out.length ≤ 2 * chunk.length + 3
          ∧ (q = true → st = true → e = chunk.length → out.length = 2 * chunk.length + 3)

/-- 42_slip.md R98: under a SOUND configuration SLIP_DEC inverts SLIP_ENC: for a payload that is encoded to a record, the frame
decodes to it; the empty payload under the quirk has no record, and the empty chunk decodes to it. Under R98's configuration
that is not SOUND, two payloads have one encoding. -/
def Obligations.SlipRoundTrip : Prop :=
  (∀ (s : State) (payload : List Byte), s.block.slip.Sound →
      (payload ≠ [] ∨ s.block.slip.quirk = false →
        ∃ (frame : List Byte) (t t' : State),
          exec (.slipEnc payload) s = .next t ∧ t.port.output = s.port.output ++ [bytesRecord 0x02 frame]
            ∧ exec (.slipDec frame) t = .next t' ∧ t'.port.output = t.port.output ++ [bytesRecord 0x03 payload])
        ∧ (payload = [] ∧ s.block.slip.quirk = true →
          ∃ t t' : State,
            exec (.slipEnc []) s = .next t ∧ t.port.output = s.port.output
              ∧ exec (.slipDec []) t = .next t' ∧ t'.port.output = t.port.output ++ [bytesRecord 0x03 []]))
    ∧ ∀ s : State, s.block.slip = { Block.reset.slip with escEsc := 0xDC } →
        ∃ t t' t'' : State,
          exec (.slipEnc [0xC0]) s = .next t
            ∧ t.port.output = s.port.output ++ [bytesRecord 0x02 [0xDB, 0xDC, 0xC0]]
            ∧ exec (.slipEnc [0xDB]) s = .next t'
            ∧ t'.port.output = s.port.output ++ [bytesRecord 0x02 [0xDB, 0xDC, 0xC0]]
            ∧ exec (.slipDec [0xDB, 0xDC, 0xC0]) s = .next t''
            ∧ t''.port.output = s.port.output ++ [bytesRecord 0x03 [0xC0]]

/-- 42_slip.md R92 to R94: a chunk that SLIP_DEC decodes to a payload is the frame SLIP_ENC makes of that payload under the same
configuration, SOUND or not (the empty payload under the quirk apart, log 10). -/
def Obligations.SlipDecAcceptsOnlyFramesOfTheEncoder : Prop :=
  ∀ (s t : State) (chunk payload : List Byte),
    exec (.slipDec chunk) s = .next t →
      t.port.output = s.port.output ++ [bytesRecord 0x03 payload] →
        (payload ≠ [] ∨ s.block.slip.quirk = false) →
          ∃ t', exec (.slipEnc payload) s = .next t' ∧ t'.port.output = s.port.output ++ [bytesRecord 0x02 chunk]

/-- 42_slip.md R84, R100: SLIP_DEC always completes: it sets SLIP_LOCK and changes nothing else but CMD_COUNT, and either answers OK with one
SlipDec record or answers E_SLIP_FORMAT with none. -/
def Obligations.SlipDecAlwaysResponds : Prop :=
  ∀ (s : State) (chunk : List Byte),
    (∃ payload : List Byte,
        exec (.slipDec chunk) s
          = .next (s.ended { s.block with slip := { s.block.slip with lock := true } } 0x00000001 0
              [bytesRecord 0x03 payload]))
      ∨ exec (.slipDec chunk) s
        = .next (s.ended { s.block with slip := { s.block.slip with lock := true } } 0x06000000 0 [])

/-- 42_slip.md R93, R95: a chunk without a frame's shape gives E_SLIP_FORMAT: empty with Q = 0; not beginning with END when Q = 1; without
START in its place when S = 1; not ending in END; or too short for its leading bytes and a last END. -/
def Obligations.SlipDecRejectsWrongShapes : Prop :=
  ∀ (s : State) (chunk : List Byte),
    let u := s.block.slip
    let q := u.ctrl.getLsbD 2
    let st := u.ctrl.getLsbD 0
    (chunk = [] ∧ q = false)
        ∨ (chunk ≠ [] ∧ (chunk.getLast? ≠ some u.endByte ∨ (q = true ∧ chunk[0]? ≠ some u.endByte)
          ∨ (st = true ∧ chunk[q.toNat]? ≠ some u.startByte) ∨ chunk.length < q.toNat + st.toNat + 1)) →
      exec (.slipDec chunk) s = .next (s.ended { s.block with slip := { u with lock := true } } 0x06000000 0 [])

/-- 42_slip.md R94: a frame whose body, after the encoding of some payload, has an END that is not ESC, a START that is not ESC while
SE = 1, an ESC followed by a byte that is no substitute, or an ESC as its last byte, gives E_SLIP_FORMAT. -/
def Obligations.SlipDecRejectsWrongBodies : Prop :=
  ∀ (s : State) (payload bad after : List Byte) (x : Byte),
    let u := s.block.slip
    (bad = u.endByte :: after ∧ u.endByte ≠ u.escByte)
        ∨ (bad = u.startByte :: after ∧ u.startEscaped = true ∧ u.startByte ≠ u.escByte)
        ∨ (bad = u.escByte :: x :: after ∧ ¬(u.startEscaped = true ∧ x = u.escStart)
          ∧ ¬(u.eClass = true ∧ x = u.escEnd) ∧ ¬(u.xClass = true ∧ x = u.escEsc))
        ∨ bad = [u.escByte] →
      exec (.slipDec (u.leader ++ payload.flatMap u.escape ++ bad ++ [u.endByte])) s
        = .next (s.ended { s.block with slip := { u with lock := true } } 0x06000000 0 [])

/-! ### SP -/

/-- 43_spacepacket.md R104, R112: while SP_FAULT = 0, SP_FEED completes, with the packets, the final state and the fault of the source's
chunk-level transitions. -/
def Obligations.SpFeedEqualsChunkLevelTransitions : Prop :=
  ∀ (s : State) (chunk : List Byte), s.Inv → s.block.sp.fault = false →
    let r := spChunkLevelOf s.port.params chunk { s.block.sp with lock := true }
    exec (.spFeed chunk) s
      = .next (s.ended
          { s.block with
            sp :=
              match r.2.2 with
              | none => r.1
              | some code => { r.1 with fault := true, err := code } }
          (respWord (r.2.2.getD 0x00) 0x00 r.2.1.length) 0 (r.2.1.map OutputUnit.record))

/-- 43_spacepacket.md R112, R113: feeding two chunks one after the other gives the packets, the state of SP and the fault of feeding
them as one, split anywhere, inside a header or a body too. -/
def Obligations.SpFeedSplitsAnywhere : Prop :=
  ∀ (s : State) (first second : List Byte), s.Inv →
    ∃ t1 t2 t : State,
      exec (.spFeed first) s = .next t1 ∧ exec (.spFeed second) t1 = .next t2
        ∧ exec (.spFeed (first ++ second)) s = .next t ∧ t2.block.sp = t.block.sp
        ∧ t2.port.output = t.port.output

/-- 43_spacepacket.md R104, R109, R110, 30_encoding.md R55: a whole packet fed to an SP that holds nothing is emitted as one record, PRES and the
two lengths from the configuration, and SP awaits the next header with SP_HDR kept. -/
def Obligations.SpFeedEmitsAWholePacket : Prop :=
  ∀ (s : State) (h : Header) (body : List Byte), s.Inv → s.block.sp.fault = false →
    s.block.sp.state = .awaitingHeader → s.block.sp.hacc.bytes = [] →
      body.length = (spDlFn s.port.params h).toNat →
        s.block.sp.tcLen.toNat + s.block.sp.ancLen.toNat ≤ body.length → body.length ≤ 65536 →
          exec (.spFeed ([h.b0, h.b1, h.b2, h.b3, h.b4, h.b5] ++ body)) s
            = .next (s.ended { s.block with sp := { s.block.sp with hdr := h, lock := true } } 0x00000001 0
                [bytesRecord 0x04
                  ([(if s.block.sp.tcLen = 0 then 0 else 0x03) ||| (if s.block.sp.ancLen = 0 then 0 else 0x05),
                      s.block.sp.tcLen.extractLsb' 8 8, s.block.sp.tcLen.extractLsb' 0 8,
                      s.block.sp.ancLen.extractLsb' 8 8, s.block.sp.ancLen.extractLsb' 0 8,
                      h.b0, h.b1, h.b2, h.b3, h.b4, h.b5] ++ body)])

/-- 43_spacepacket.md R102: with no exception in the parameter's table, SP_DL_FN is the default rule, in 1..65536. -/
def Obligations.DefaultDataLengthRule : Prop :=
  ∀ (p : Params) (h : Header), p.dlTable = [] →
    (spDlFn p h).toNat = h.b4.toNat * 256 + h.b5.toNat + 1

/-- 43_spacepacket.md R106: a chunk that does not complete the header is kept in SP_HACC, and SP stays in AwaitingHeader. -/
def Obligations.SpPartialHeaderIsKept : Prop :=
  ∀ (s : State) (chunk : List Byte), s.Inv → s.block.sp.fault = false → s.block.sp.state = .awaitingHeader →
    s.block.sp.hacc.bytes.length + chunk.length < 6 →
      exec (.spFeed chunk) s
        = .next (s.ended
            { s.block with
              sp :=
                { s.block.sp with
                  hacc := ⟨s.block.sp.hacc.bytes ++ chunk, s.block.sp.hacc.bytes.length + chunk.length⟩
                  lock := true } }
            0x00000000 0 [])

/-- 43_spacepacket.md R107, 60_exceptions.md R125, R126: a header that declares less than the secondary header, or else more than SP_BODY_CAP,
raises F_SP_SECHDR or F_SP_CAP at its sixth byte: the rest of the chunk is dropped, and the state is the one R126 lists. -/
def Obligations.SpHeaderFaults : Prop :=
  ∀ (s : State) (h : Header) (dropped : List Byte), s.Inv → s.block.sp.fault = false →
    s.block.sp.state = .awaitingHeader → s.block.sp.hacc.bytes = [] →
      let dl := spDlFn s.port.params h
      let sec := s.block.sp.tcLen.toNat + s.block.sp.ancLen.toNat
      let chunk := [h.b0, h.b1, h.b2, h.b3, h.b4, h.b5] ++ dropped
      (dl.toNat < sec →
          exec (.spFeed chunk) s
            = .next (s.ended
                { s.block with
                  sp :=
                    { s.block.sp with
                      hdr := h, hdrValid := true, dl := dl, lock := true, fault := true, err := 0x80 } }
                0x80000000 0 []))
        ∧ (sec ≤ dl.toNat → 65536 < dl.toNat →
          exec (.spFeed chunk) s
            = .next (s.ended
                { s.block with
                  sp :=
                    { s.block.sp with
                      hdr := h, hdrValid := true, dl := dl, lock := true, fault := true, err := 0x82 } }
                0x82000000 0 []))

/-- 43_spacepacket.md R107: with the default SP_DL_FN, F_SP_CAP cannot happen. -/
def Obligations.DefaultDataLengthNeverExceedsTheCapacity : Prop :=
  ∀ (i : Instr) (s t : State), s.port.params.dlTable = [] → s.block.sp.err ≠ 0x82 → exec i s = .next t →
    t.block.sp.err ≠ 0x82

/-- 43_spacepacket.md R111: F_SP_NOHDR cannot happen: no step from a state that meets the invariant records it or responds with it. -/
def Obligations.NoPacketWithoutAHeader : Prop :=
  ∀ (s t : State), s.Inv → step s = .next t →
    t.block.sp.err ≠ 0x81
      ∧ ∀ r : Response, t.port.responses = s.port.responses ++ [r] → r.resp0.extractLsb' 24 8 ≠ 0x81

/-- 60_exceptions.md R124, R127: while SP_FAULT = 1, the three SP commands are refused with E_FAULTED and change nothing but
CMD_COUNT. -/
def Obligations.FaultedSpRefusesItsCommands : Prop :=
  ∀ (s : State) (chunk : List Byte), s.block.sp.fault = true →
    exec (.spFeed chunk) s = .next (s.ended s.block 0x07000000 0 [])
      ∧ exec .spFlush s = .next (s.ended s.block 0x07000000 0 [])
      ∧ exec .spDiscard s = .next (s.ended s.block 0x07000000 0 [])

/-- 10_state.md R25, 60_exceptions.md R127: while SP_FAULT = 1, in a state that meets the invariant, no command but RESET changes any
element of SP. -/
def Obligations.FaultFreezesSp : Prop :=
  ∀ (i : Instr) (s t : State), s.Inv → s.block.sp.fault = true → i ≠ .reset → exec i s = .next t →
    t.block.sp = s.block.sp

/-- 10_state.md R31: while no fault stops it, the bytes of the packets an SP_FEED emits (header, time code, ancillary data, payload),
then what SP holds, are what SP held and then the chunk. -/
def Obligations.SpFeedConservesBytes : Prop :=
  ∀ (s t : State) (chunk : List Byte) (records : List Record), s.Inv → s.block.sp.fault = false →
    exec (.spFeed chunk) s = .next t → t.block.sp.fault = false → t.port.output = s.port.output ++ records →
      (records.flatMap fun r => r.body.drop 5) ++ t.block.sp.held = s.block.sp.held ++ chunk

/-- 43_spacepacket.md R114: SP_FLUSH emits the residue (an empty one only under SP_FLUSH_EMPTY = EMIT) and returns SP to its initial stream
state; SP_HDR, the configuration and SP_LOCK stay. -/
def Obligations.SpFlushEmitsTheResidue : Prop :=
  ∀ s : State, s.block.sp.fault = false →
    let residue := s.block.sp.hacc.bytes ++ s.block.sp.bacc.bytes
    let sends := residue ≠ [] ∨ s.port.params.flushEmpty = .emit
    exec .spFlush s
      = .next (s.ended
          { s.block with
            sp :=
              { s.block.sp with
                state := .awaitingHeader, hacc := ⟨[], 0⟩, bacc := ⟨[], 0⟩, hdrValid := false, dl := 0 } }
          (if sends then 0x00000001 else 0x00000000) 0 (if sends then [bytesRecord 0x05 residue] else []))

/-- 43_spacepacket.md R116: SP_DISCARD drops what SP holds and emits no record; SP_HDR, the configuration and SP_LOCK stay. -/
def Obligations.SpDiscardDropsTheResidue : Prop :=
  ∀ s : State, s.block.sp.fault = false →
    exec .spDiscard s
      = .next (s.ended
          { s.block with
            sp :=
              { s.block.sp with
                state := .awaitingHeader, hacc := ⟨[], 0⟩, bacc := ⟨[], 0⟩, hdrValid := false, dl := 0 } }
          0x00000000 0 [])
end

