-- ==== Sys2Proof/Laws/State.lean ====
section
/-! SUPPORT. One lemma per field per update of the state, each true by unfolding, so that no later proof unfolds a record update. -/

namespace Sys2Proof.Machine

section
variable (s : State) (b : Block) (code : Code) (desync : Bool) (units : List OutputUnit) (rdata r0 r1 : Word)
  (rest : List HostEvent) (now : Word) (u : SpUnit) (records : List Record)

@[simp] theorem Acc.clear_eq (a : Acc) : a.clear = ⟨[], 0⟩ := rfl

@[simp] theorem Block.countCommand_cmdCount : b.countCommand.cmdCount = b.cmdCount + 1 := rfl
@[simp] theorem Block.countCommand_cc : b.countCommand.cc = b.cc := rfl
@[simp] theorem Block.countCommand_slip : b.countCommand.slip = b.slip := rfl
@[simp] theorem Block.countCommand_sp : b.countCommand.sp = b.sp := rfl

@[simp] theorem State.report_block : (s.report code desync units rdata).block = s.block := rfl
@[simp] theorem State.report_input : (s.report code desync units rdata).port.input = s.port.input := rfl
@[simp] theorem State.report_now : (s.report code desync units rdata).port.now = s.port.now := rfl
@[simp] theorem State.report_params : (s.report code desync units rdata).port.params = s.port.params := rfl
@[simp] theorem State.report_responses :
    (s.report code desync units rdata).port.responses
      = s.port.responses ++ [respond code desync units.length rdata] := rfl
@[simp] theorem State.report_output :
    (s.report code desync units rdata).port.output = s.port.output ++ units.map OutputUnit.record := rfl

@[simp] theorem State.report_responseStream :
    (s.report code desync units rdata).responseStream
      = s.responseStream ++ (respond code desync units.length rdata).wire := by
  simp [State.responseStream]
@[simp] theorem State.report_outputStream :
    (s.report code desync units rdata).outputStream
      = s.outputStream ++ (units.map OutputUnit.record).flatMap Record.wire := by
  simp [State.outputStream]
@[simp] theorem Response.wire_length (r : Response) : r.wire.length = 8 := rfl
@[simp] theorem Record.wire_length (r : Record) : r.wire.length = r.body.length + 4 := rfl

@[simp] theorem State.finish_cmdCount : (s.finish code desync units rdata b).block.cmdCount = b.cmdCount + 1 := rfl
@[simp] theorem State.finish_cc : (s.finish code desync units rdata b).block.cc = b.cc := rfl
@[simp] theorem State.finish_slip : (s.finish code desync units rdata b).block.slip = b.slip := rfl
@[simp] theorem State.finish_sp : (s.finish code desync units rdata b).block.sp = b.sp := rfl
@[simp] theorem State.finish_input : (s.finish code desync units rdata b).port.input = s.port.input := rfl
@[simp] theorem State.finish_now : (s.finish code desync units rdata b).port.now = s.port.now := rfl
@[simp] theorem State.finish_params : (s.finish code desync units rdata b).port.params = s.port.params := rfl
@[simp] theorem State.finish_responses :
    (s.finish code desync units rdata b).port.responses
      = s.port.responses ++ [respond code desync units.length rdata] := rfl
@[simp] theorem State.finish_output :
    (s.finish code desync units rdata b).port.output = s.port.output ++ units.map OutputUnit.record := rfl

@[simp] theorem State.refuse_cmdCount : (s.refuse code).block.cmdCount = s.block.cmdCount + 1 := rfl
@[simp] theorem State.refuse_cc : (s.refuse code).block.cc = s.block.cc := rfl
@[simp] theorem State.refuse_slip : (s.refuse code).block.slip = s.block.slip := rfl
@[simp] theorem State.refuse_sp : (s.refuse code).block.sp = s.block.sp := rfl
@[simp] theorem State.refuse_input : (s.refuse code).port.input = s.port.input := rfl
@[simp] theorem State.refuse_now : (s.refuse code).port.now = s.port.now := rfl
@[simp] theorem State.refuse_params : (s.refuse code).port.params = s.port.params := rfl
@[simp] theorem State.refuse_responses :
    (s.refuse code).port.responses = s.port.responses ++ [respond code false 0 0] := rfl
@[simp] theorem State.refuse_output : (s.refuse code).port.output = s.port.output := by
  simp [State.refuse]

@[simp] theorem State.raiseFault_cmdCount :
    (s.raiseFault code units u).block.cmdCount = s.block.cmdCount + 1 := rfl
@[simp] theorem State.raiseFault_cc : (s.raiseFault code units u).block.cc = s.block.cc := rfl
@[simp] theorem State.raiseFault_slip : (s.raiseFault code units u).block.slip = s.block.slip := rfl
@[simp] theorem State.raiseFault_sp :
    (s.raiseFault code units u).block.sp = { u with fault := true, err := code.value } := rfl
@[simp] theorem State.raiseFault_input : (s.raiseFault code units u).port.input = s.port.input := rfl
@[simp] theorem State.raiseFault_now : (s.raiseFault code units u).port.now = s.port.now := rfl
@[simp] theorem State.raiseFault_params : (s.raiseFault code units u).port.params = s.port.params := rfl
@[simp] theorem State.raiseFault_responses :
    (s.raiseFault code units u).port.responses
      = s.port.responses ++ [respond code false units.length 0] := rfl
@[simp] theorem State.raiseFault_output :
    (s.raiseFault code units u).port.output = s.port.output ++ units.map OutputUnit.record := rfl

@[simp] theorem State.resetBlock_block : s.resetBlock.block = Block.reset := rfl
@[simp] theorem State.resetBlock_port : s.resetBlock.port = s.port := rfl

@[simp] theorem State.accept_block : (s.accept now rest).block = s.block := rfl
@[simp] theorem State.accept_input : (s.accept now rest).port.input = rest := rfl
@[simp] theorem State.accept_now : (s.accept now rest).port.now = now := rfl
@[simp] theorem State.accept_params : (s.accept now rest).port.params = s.port.params := rfl
@[simp] theorem State.accept_responses : (s.accept now rest).port.responses = s.port.responses := rfl
@[simp] theorem State.accept_output : (s.accept now rest).port.output = s.port.output := rfl

@[simp] theorem State.resetByInput_block : (s.resetByInput rest).block = Block.reset := rfl
@[simp] theorem State.resetByInput_input : (s.resetByInput rest).port.input = rest := rfl
@[simp] theorem State.resetByInput_responses : (s.resetByInput rest).port.responses = s.port.responses := rfl
@[simp] theorem State.resetByInput_output : (s.resetByInput rest).port.output = s.port.output := rfl

@[simp] theorem State.ended_cmdCount : (s.ended b r0 r1 records).block.cmdCount = s.block.cmdCount + 1 := rfl
@[simp] theorem State.ended_cc : (s.ended b r0 r1 records).block.cc = b.cc := rfl
@[simp] theorem State.ended_slip : (s.ended b r0 r1 records).block.slip = b.slip := rfl
@[simp] theorem State.ended_sp : (s.ended b r0 r1 records).block.sp = b.sp := rfl
@[simp] theorem State.ended_responses :
    (s.ended b r0 r1 records).port.responses = s.port.responses ++ [⟨r0, r1⟩] := rfl
@[simp] theorem State.ended_output : (s.ended b r0 r1 records).port.output = s.port.output ++ records := rfl
@[simp] theorem State.ended_now : (s.ended b r0 r1 records).port.now = s.port.now := rfl
@[simp] theorem State.ended_params : (s.ended b r0 r1 records).port.params = s.port.params := rfl
@[simp] theorem State.ended_input : (s.ended b r0 r1 records).port.input = s.port.input := rfl

end

/-- Everything the end of a command does (30_encoding.md R56): claims about `finish` are claims about `ended`. -/
theorem State.finish_eq_ended (s : State) (code : Code) (desync : Bool) (units : List OutputUnit) (rdata : Word)
    (b : Block) (hb : b.cmdCount = s.block.cmdCount) :
    s.finish code desync units rdata b
      = s.ended b (respWord code.value ((bit desync).setWidth 8) units.length) rdata (units.map OutputUnit.record) := by
  simp [State.finish, State.ended, State.report, Block.countCommand, respond, respWord, hb]

/-- Everything a refusal does (60_exceptions.md R123). -/
theorem State.refuse_eq_ended (s : State) (code : Code) :
    s.refuse code = s.ended s.block (respWord code.value 0 0) 0 [] := by
  simp [State.refuse, State.finish_eq_ended, bit]

/-- Everything the SP fault does (60_exceptions.md R125). -/
theorem State.raiseFault_eq_ended (s : State) (code : Code) (units : List OutputUnit) (u : SpUnit) :
    s.raiseFault code units u
      = s.ended { s.block with sp := { u with fault := true, err := code.value } }
          (respWord code.value 0 units.length) 0 (units.map OutputUnit.record) := by
  rw [State.raiseFault, State.finish_eq_ended] <;> simp [bit]

end Sys2Proof.Machine
end

