-- ==== Sys2Proof/Laws/Accumulator.lean ====
section
/-! SUPPORT. What each accumulator primitive can do (40_accumulator.md R60 to R64), and that each keeps an accumulator well formed. -/

namespace Sys2Proof.Machine

theorem Acc.append_eq_ok {cap : Nat} {a a' : Acc} {b : Byte} :
    a.append cap b = .ok a' ↔ a.cursor < cap ∧ a' = ⟨a.bytes ++ [b], a.cursor + 1⟩ := by
  unfold Acc.append
  split <;> simp_all [eq_comm]

theorem Acc.readAt_eq_ok {a : Acc} {i : Nat} {b : Byte} :
    a.readAt i = .ok b ↔ i < a.cursor ∧ a.bytes[i]? = some b := by
  unfold Acc.readAt
  split
  · split <;> simp_all
  · simp_all

theorem Acc.take_eq_ok {a a' : Acc} {n : Nat} {out : List Byte} :
    a.take n = .ok (out, a')
      ↔ n ≤ a.cursor ∧ n ≤ a.bytes.length ∧ out = a.bytes.take n ∧ a' = ⟨a.bytes.drop n, a.cursor - n⟩ := by
  unfold Acc.take
  split <;> simp_all [eq_comm]

theorem Acc.wf_empty (cap : Nat) : (⟨[], 0⟩ : Acc).Wf cap := by simp [Acc.Wf]

theorem Acc.append_wf {cap : Nat} {a a' : Acc} {b : Byte} (ha : a.Wf cap) (h : a.append cap b = .ok a') : a'.Wf cap := by
  obtain ⟨hlt, rfl⟩ := Acc.append_eq_ok.1 h
  obtain ⟨hlen, _⟩ := ha
  exact ⟨by simp [hlen], hlt⟩

theorem Acc.take_wf {cap n : Nat} {a a' : Acc} {out : List Byte} (ha : a.Wf cap) (h : a.take n = .ok (out, a')) :
    a'.Wf cap := by
  obtain ⟨_, _, _, rfl⟩ := Acc.take_eq_ok.1 h
  obtain ⟨hlen, hcap⟩ := ha
  exact ⟨by simp [hlen], by simp; omega⟩

end Sys2Proof.Machine
end

