-- ==== Sys2Proof/Laws/CcTalk.lean ====
section
/-! SUPPORT. What one byte and what a chunk do to the CC unit (41_cctalk.md R67, R75). -/

namespace Sys2Proof.Machine

/-- A buffer holds at least the frame its length byte declares (41_cctalk.md R73, R74). -/
abbrev holdsFrame (buffer : List Byte) : Prop := 2 ≤ buffer.length ∧ (buffer.getD 1 0).toNat + 5 ≤ buffer.length

/-- Everything one byte can do to a settled unit: it completes a frame of the whole buffer, or it is kept (41_cctalk.md R75). -/
theorem CcUnit.pushByte_eq (b : Byte) (u : CcUnit) (hw : u.acc.Wf Config.ccBufCap) (hs : u.NoWholeFrame) :
    u.pushByte b
      = .ok (if holdsFrame (u.acc.bytes ++ [b]) then ({ u with acc := ⟨[], 0⟩ }, [.ccFrame (u.acc.bytes ++ [b])])
          else ({ u with acc := ⟨u.acc.bytes ++ [b], u.acc.bytes.length + 1⟩ }, [])) := by
  obtain ⟨⟨bytes, cursor⟩, maxDelay, lastTime, lastValid, desyncCount, lock⟩ := u
  simp only [Acc.Wf, CcUnit.NoWholeFrame, Config.ccBufCap] at hw hs ⊢
  obtain ⟨rfl, hcap⟩ := hw
  have hroom : bytes.length < 260 := by
    have := (bytes.getD 1 0).isLt
    omega
  have hidx : (bytes ++ [b])[1]? = some ((bytes ++ [b]).getD 1 0) ∨ (bytes ++ [b]).length < 2 := by
    by_cases h : 1 < (bytes ++ [b]).length
    · exact .inl (by simp [List.getD_eq_getElem?_getD, List.getElem?_eq_getElem h])
    · exact .inr (by omega)
  have hget : 2 ≤ bytes.length → (bytes ++ [b]).getD 1 0 = bytes.getD 1 0 := fun h => by
    simp [List.getD_eq_getElem?_getD, List.getElem?_append_left (show 1 < bytes.length by omega)]
  unfold CcUnit.pushByte
  simp only [Acc.append, Config.ccBufCap, hroom, if_true]
  by_cases h2 : 2 ≤ bytes.length + 1
  · have hidx' : (bytes ++ [b])[1]? = some ((bytes ++ [b]).getD 1 0) := by
      rcases hidx with h | h
      · exact h
      · simp only [List.length_append, List.length_cons, List.length_nil] at h
        omega
    have hread : Acc.readAt ⟨bytes ++ [b], bytes.length + 1⟩ 1 = .ok ((bytes ++ [b]).getD 1 0) :=
      Acc.readAt_eq_ok.2 ⟨by show 1 < bytes.length + 1; omega, hidx'⟩
    simp only [h2, if_true, hread]
    by_cases hL : ((bytes ++ [b]).getD 1 0).toNat + 5 ≤ bytes.length + 1
    · have hlen : ((bytes ++ [b]).getD 1 0).toNat + 5 = bytes.length + 1 := by
        rcases hs with h | h
        · omega
        · by_cases h3 : 2 ≤ bytes.length
          · rw [hget h3] at hL ⊢; omega
          · omega
      have htake : Acc.take ⟨bytes ++ [b], bytes.length + 1⟩ (((bytes ++ [b]).getD 1 0).toNat + 5)
          = .ok (bytes ++ [b], ⟨[], 0⟩) := by
        rw [hlen]
        exact Acc.take_eq_ok.2 (by simp)
      have hf : holdsFrame (bytes ++ [b]) := by
        refine ⟨by simp; omega, ?_⟩
        simp only [List.length_append, List.length_cons, List.length_nil]
        omega
      rw [if_pos hL, htake, if_pos hf]
    · have hf : ¬holdsFrame (bytes ++ [b]) := fun h => hL (by
        have := h.2
        simpa only [List.length_append, List.length_cons, List.length_nil] using this)
      rw [if_neg hL, if_neg hf]
  · have hf : ¬holdsFrame (bytes ++ [b]) := fun h => h2 (by simpa using h.1)
    rw [if_neg h2, if_neg hf]

/-- A byte leaves a settled unit settled, and touches only CC_ACC (41_cctalk.md R76). -/
theorem CcUnit.pushByte_settled {b : Byte} {u u' : CcUnit} {frames : List OutputUnit}
    (hw : u.acc.Wf Config.ccBufCap) (hs : u.NoWholeFrame) (h : u.pushByte b = .ok (u', frames)) :
    u'.acc.Wf Config.ccBufCap ∧ u'.NoWholeFrame ∧ u' = { u with acc := u'.acc } := by
  rw [CcUnit.pushByte_eq b u hw hs] at h
  have hroom : u.acc.bytes.length < 260 := by
    have := (u.acc.bytes.getD 1 0).isLt
    obtain ⟨h1, h2⟩ := hw
    simp only [CcUnit.NoWholeFrame, Config.ccBufCap] at hs h2
    omega
  split at h
  · simp only [Except.ok.injEq, Prod.mk.injEq] at h
    obtain ⟨rfl, -⟩ := h
    simp [Acc.Wf, CcUnit.NoWholeFrame]
  · rename_i hf
    simp only [Except.ok.injEq, Prod.mk.injEq] at h
    obtain ⟨rfl, -⟩ := h
    refine ⟨⟨by simp, by simpa [Config.ccBufCap] using hroom⟩, ?_, rfl⟩
    simp only [CcUnit.NoWholeFrame]
    by_contra hc
    exact hf ⟨by omega, by omega⟩

/-- CC_FEED's loop over two pieces is the loop over one after the other. -/
theorem CcUnit.pushBytes_append (xs ys : List Byte) (u : CcUnit) :
    CcUnit.pushBytes (xs ++ ys) u
      = match CcUnit.pushBytes xs u with
        | .error r => .error r
        | .ok (v, first) =>
          match CcUnit.pushBytes ys v with
          | .error r => .error r
          | .ok (w, more) => .ok (w, first ++ more) := by
  induction xs generalizing u with
  | nil => simp only [List.nil_append, CcUnit.pushBytes]; split <;> simp_all
  | cons b rest ih =>
    simp only [List.cons_append, CcUnit.pushBytes]
    cases h1 : u.pushByte b with
    | error r => rfl
    | ok p =>
      obtain ⟨v, first⟩ := p
      simp only [ih v]
      cases h2 : CcUnit.pushBytes rest v with
      | error r => rfl
      | ok q =>
        obtain ⟨w, more⟩ := q
        simp only
        cases h3 : CcUnit.pushBytes ys w with
        | error r => rfl
        | ok q' => simp [List.append_assoc]

/-- CC_FEED's loop on a settled unit completes and leaves a settled unit; it touches only CC_ACC (41_cctalk.md R76). -/
theorem CcUnit.pushBytes_settled (chunk : List Byte) (u : CcUnit) (hw : u.acc.Wf Config.ccBufCap) (hs : u.NoWholeFrame) :
    ∃ u' frames, CcUnit.pushBytes chunk u = .ok (u', frames) ∧ u'.acc.Wf Config.ccBufCap ∧ u'.NoWholeFrame
      ∧ u' = { u with acc := u'.acc } := by
  induction chunk generalizing u with
  | nil => exact ⟨u, [], rfl, hw, hs, rfl⟩
  | cons b rest ih =>
    have h1 := CcUnit.pushByte_eq b u hw hs
    generalize (if holdsFrame (u.acc.bytes ++ [b]) then _ else _ : CcUnit × List OutputUnit) = p at h1
    obtain ⟨v, first⟩ := p
    obtain ⟨hw', hs', he⟩ := CcUnit.pushByte_settled hw hs h1
    obtain ⟨w, more, h2, hw2, hs2, he2⟩ := ih v hw' hs'
    refine ⟨w, first ++ more, by simp [CcUnit.pushBytes, h1, h2], hw2, hs2, ?_⟩
    rw [he2, he]

/-- What the timing step can do (41_cctalk.md R70 to R72). -/
theorem CcUnit.timingStep_cases (now : Word) (u : CcUnit) :
    (u.maxDelay = 0 ∧ u.timingStep now = u)
      ∨ (u.maxDelay ≠ 0 ∧ u.discards now = false
          ∧ u.timingStep now = { u with lastTime := now, lastValid := true })
      ∨ (u.maxDelay ≠ 0 ∧ u.discards now = true
          ∧ u.timingStep now
            = { u with
                acc := ⟨[], 0⟩
                desyncCount := if u.desync now then u.desyncCount + 1 else u.desyncCount
                lastTime := now
                lastValid := true }) := by
  by_cases h0 : u.maxDelay = 0
  · exact .inl ⟨h0, if_pos h0⟩
  · cases hd : u.discards now
    · exact .inr (.inl ⟨h0, rfl, by rw [CcUnit.timingStep, if_neg h0]; simp [hd, CcUnit.desync]⟩)
    · exact .inr (.inr ⟨h0, rfl, by rw [CcUnit.timingStep, if_neg h0]; simp [hd]⟩)

/-- The timing step leaves a settled unit settled. -/
theorem CcUnit.timingStep_settled (now : Word) (u : CcUnit) (hw : u.acc.Wf Config.ccBufCap) (hs : u.NoWholeFrame) :
    (u.timingStep now).acc.Wf Config.ccBufCap ∧ (u.timingStep now).NoWholeFrame := by
  rcases CcUnit.timingStep_cases now u with ⟨_, h⟩ | ⟨_, _, h⟩ | ⟨_, _, h⟩ <;> rw [h]
  · exact ⟨hw, hs⟩
  · exact ⟨hw, hs⟩
  · exact ⟨Acc.wf_empty _, by simp [CcUnit.NoWholeFrame]⟩

end Sys2Proof.Machine
end

