-- ==== Sys2Proof/Laws/Operands.lean ====
section
/-! SUPPORT. What a register write can change (10_state.md R26): configuration, and nothing else. -/

namespace Sys2Proof.Machine

theorem Reg.write_cmdCount (r : Reg) (data : Half) (b : Block) : (r.write data b).cmdCount = b.cmdCount := by
  cases r <;> rfl

/-- A write changes CC_MAXDELAY at most, in the CC unit. -/
theorem Reg.write_cc (r : Reg) (data : Half) (b : Block) :
    (r.write data b).cc = { b.cc with maxDelay := (r.write data b).cc.maxDelay } := by
  cases r <;> rfl

/-- A write leaves SLIP_LOCK as it is. -/
theorem Reg.write_slipLock (r : Reg) (data : Half) (b : Block) : (r.write data b).slip.lock = b.slip.lock := by
  cases r <;> rfl

/-- A write changes SP_TCLEN and SP_ANCLEN at most, in the SP unit. -/
theorem Reg.write_sp (r : Reg) (data : Half) (b : Block) :
    (r.write data b).sp
      = { b.sp with tcLen := (r.write data b).sp.tcLen, ancLen := (r.write data b).sp.ancLen } := by
  cases r <;> rfl

/-- A writable register whose unit is locked is a configuration register of that unit: unless a unit's lock is 0, a write that
passes the lock check leaves the unit's configuration as it was (10_state.md R12). -/
theorem Reg.write_unlocked (r : Reg) (data : Half) (b : Block) (h : r.locked b = false) :
    (b.cc.lock = true → (r.write data b).cc = b.cc) ∧ (b.slip.lock = true → (r.write data b).slip = b.slip)
      ∧ (b.sp.lock = true → (r.write data b).sp = b.sp) := by
  cases r <;> simp_all [Reg.write, Reg.locked]

end Sys2Proof.Machine
end

