-- ==== Sys2Proof/Laws/Slip.lean ====
section
/-! SUPPORT. What the SLIP encoder does to one byte and the decoder to one token (42_slip.md R87, R94, R96). -/

namespace Sys2Proof.Machine

/-- The four cases of 42_slip.md R87, each with the escape class of R96 that it belongs to. -/
theorem SlipUnit.escape_cases (u : SlipUnit) (b : Byte) :
    (u.startEscaped = true ∧ b = u.startByte ∧ u.escape b = [u.escByte, u.escStart])
      ∨ (u.eClass = true ∧ b = u.endByte ∧ ¬(u.startEscaped = true ∧ b = u.startByte)
          ∧ u.escape b = [u.escByte, u.escEnd])
      ∨ (u.xClass = true ∧ b = u.escByte ∧ b ≠ u.endByte ∧ ¬(u.startEscaped = true ∧ b = u.startByte)
          ∧ u.escape b = [u.escByte, u.escEsc])
      ∨ (b ≠ u.escByte ∧ b ≠ u.endByte ∧ ¬(u.startEscaped = true ∧ b = u.startByte) ∧ u.escape b = [b]) := by
  by_cases h1 : u.startEscaped = true ∧ b = u.startByte
  · exact .inl ⟨h1.1, h1.2, by simp [SlipUnit.escape, h1]⟩
  by_cases h2 : b = u.endByte
  · refine .inr (.inl ⟨?_, h2, h1, by rw [SlipUnit.escape, if_neg h1, if_pos h2]⟩)
    subst h2
    cases hse : u.startEscaped <;> simp_all [SlipUnit.eClass]
    exact fun h => h1 h.symm
  by_cases h3 : b = u.escByte
  · refine .inr (.inr (.inl ⟨?_, h3, h2, h1, by rw [SlipUnit.escape, if_neg h1, if_neg h2, if_pos h3]⟩))
    subst h3
    cases hse : u.startEscaped <;> simp_all [SlipUnit.xClass]
    exact fun h => h1 h.symm
  · exact .inr (.inr (.inr ⟨h3, h2, h1, by rw [SlipUnit.escape, if_neg h1, if_neg h2, if_neg h3]⟩))

/-- A byte that is escaped becomes a pair that begins with ESC; a byte that is not stays one byte (42_slip.md R87). -/
theorem SlipUnit.escape_length (u : SlipUnit) (b : Byte) : (u.escape b).length = 1 ∨ (u.escape b).length = 2 := by
  rcases u.escape_cases b with ⟨_, _, h⟩ | ⟨_, _, _, h⟩ | ⟨_, _, _, _, h⟩ | ⟨_, _, _, h⟩ <;> simp [h]

/-- A body that begins with an escape pair (42_slip.md R94). -/
theorem SlipUnit.decodeBody_pair (u : SlipUnit) (x : Byte) (rest : List Byte) :
    u.decodeBody (u.escByte :: x :: rest)
      = match u.unescape x with
        | none => none
        | some y => (u.decodeBody rest).map (y :: ·) := by
  rw [SlipUnit.decodeBody]
  exact if_pos rfl

/-- A body that begins with a byte other than ESC (42_slip.md R94). -/
theorem SlipUnit.decodeBody_plain (u : SlipUnit) (b : Byte) (rest : List Byte) (hb : b ≠ u.escByte) :
    u.decodeBody (b :: rest) = if u.copied b then (u.decodeBody rest).map (b :: ·) else none := by
  cases rest with
  | nil => by_cases hc : u.copied b <;> simp [SlipUnit.decodeBody, hb, hc]
  | cons x rest => by_cases hc : u.copied b <;> simp [SlipUnit.decodeBody, hb, hc]

/-- Every second byte the encoder writes is one the decoder knows, whether or not the configuration is SOUND. -/
theorem SlipUnit.unescape_known (u : SlipUnit) :
    (u.startEscaped = true → (u.unescape u.escStart).isSome)
      ∧ (u.eClass = true → (u.unescape u.escEnd).isSome) ∧ (u.xClass = true → (u.unescape u.escEsc).isSome) := by
  refine ⟨fun h => ?_, fun h => ?_, fun h => ?_⟩ <;> simp only [SlipUnit.unescape, h, true_and, if_true]
  · simp
  · split <;> simp
  · repeat' split
    all_goals simp

end Sys2Proof.Machine
end

