-- ==== Sys2Proof/Laws/SpacePacket.lean ====
section
/-! SUPPORT. What one byte and what a chunk do to the SP unit (43_spacepacket.md R104 to R109). -/

namespace Sys2Proof.Machine

/-- The SP unit inside a stream, with no fault: the accumulators well formed and one of the two cases of 10_state.md R30. -/
abbrev SpUnit.Ready (u : SpUnit) : Prop :=
  u.hacc.Wf Config.spHdrLen ∧ u.bacc.Wf Config.spBodyCap ∧ (u.InHeader ∨ u.InBody)

/-- The unit as a header parse leaves it, before the checks (43_spacepacket.md R107). -/
def SpUnit.parsed (p : Params) (h : Header) (u : SpUnit) : SpUnit :=
  { u with hacc := ⟨[], 0⟩, hdr := h, hdrValid := true, dl := spDlFn p h }

/-- The unit after a packet is complete (43_spacepacket.md R109). -/
def SpUnit.packetDone (u : SpUnit) : SpUnit :=
  { u with bacc := ⟨[], 0⟩, hdrValid := false, dl := 0, state := .awaitingHeader }

/-- SpComplete with a parsed header and exactly the declared bytes (43_spacepacket.md R109). -/
theorem SpUnit.completePacket_eq (u : SpUnit) (hv : u.hdrValid = true) (hw : u.bacc.cursor = u.bacc.bytes.length)
    (hl : u.dl.toNat = u.bacc.bytes.length) :
    u.completePacket = .running u.packetDone [u.packet u.bacc.bytes] := by
  have ht : u.bacc.take u.dl.toNat = .ok (u.bacc.bytes, ⟨[], 0⟩) := Acc.take_eq_ok.2 (by simp [hl, hw])
  simp [SpUnit.completePacket, hv, ht, SpUnit.packetDone, SpUnit.packet]

/-- SpParseHeader on six header bytes and an empty body: the two faults, a packet with no body, or AwaitingBody
(43_spacepacket.md R107). -/
theorem SpUnit.parseHeader_eq (p : Params) (u : SpUnit) (hc : u.hacc.cursor = 6) (hl : u.hacc.bytes.length = 6)
    (hb : u.bacc = ⟨[], 0⟩) :
    u.parseHeader p
      = (let v := u.parsed p (headerOfBytes u.hacc.bytes)
         if v.dl.toNat < v.secLen then .faulted v [] .spSecHdr
         else if Config.spBodyCap < v.dl.toNat then .faulted v [] .spCap
         else if v.dl.toNat = 0 then .running v.packetDone [v.packet []]
         else .running { v with state := .awaitingBody } []) := by
  have ht : u.hacc.take Config.spHdrLen = .ok (u.hacc.bytes, ⟨[], 0⟩) :=
    Acc.take_eq_ok.2 (by simp [hl, hc, Config.spHdrLen])
  simp only [SpUnit.parseHeader, ht, SpUnit.parsed, hb]
  split
  · rfl
  split
  · rfl
  by_cases h0 : (spDlFn p (headerOfBytes u.hacc.bytes)).toNat = 0
  · rw [if_pos (by rw [h0]), if_pos h0, SpUnit.completePacket_eq] <;> simp [h0, SpUnit.packetDone, SpUnit.packet]
  · rw [if_neg (show ¬(spDlFn p (headerOfBytes u.hacc.bytes)).toNat ≤ 0 by omega), if_neg h0]

/-- Everything one byte can do while a header is awaited (43_spacepacket.md R106). -/
theorem SpUnit.pushByte_header (p : Params) (b : Byte) (u : SpUnit) (hw : u.hacc.cursor = u.hacc.bytes.length)
    (hs : u.state = .awaitingHeader) (h5 : u.hacc.bytes.length ≤ 5) :
    u.pushByte p b
      = if u.hacc.bytes.length + 1 = 6 then
          ({ u with hacc := ⟨u.hacc.bytes ++ [b], 6⟩ } : SpUnit).parseHeader p
        else .running { u with hacc := ⟨u.hacc.bytes ++ [b], u.hacc.bytes.length + 1⟩ } [] := by
  have ha : u.hacc.append Config.spHdrLen b = .ok ⟨u.hacc.bytes ++ [b], u.hacc.bytes.length + 1⟩ :=
    Acc.append_eq_ok.2 ⟨by simp [hw, Config.spHdrLen]; omega, by simp [hw]⟩
  simp only [SpUnit.pushByte, hs, ha]
  by_cases h6 : u.hacc.bytes.length + 1 = 6
  · rw [if_pos (show u.hacc.bytes.length + 1 = Config.spHdrLen from h6), if_pos h6, h6]
  · rw [if_neg (show ¬u.hacc.bytes.length + 1 = Config.spHdrLen from h6), if_neg h6]

/-- Everything one byte can do inside a body (43_spacepacket.md R108). -/
theorem SpUnit.pushByte_body (p : Params) (b : Byte) (u : SpUnit) (hw : u.bacc.Wf Config.spBodyCap) (hb : u.InBody) :
    u.pushByte p b
      = (let v : SpUnit := { u with bacc := ⟨u.bacc.bytes ++ [b], u.bacc.bytes.length + 1⟩ }
         if u.dl.toNat = u.bacc.bytes.length + 1 then .running v.packetDone [v.packet (u.bacc.bytes ++ [b])]
         else .running v []) := by
  obtain ⟨hs, -, hv, -, hcap, hlt⟩ := hb
  obtain ⟨hc, -⟩ := hw
  have ha : u.bacc.append Config.spBodyCap b = .ok ⟨u.bacc.bytes ++ [b], u.bacc.bytes.length + 1⟩ :=
    Acc.append_eq_ok.2 ⟨by omega, by simp [hc]⟩
  simp only [SpUnit.pushByte, hs, ha]
  by_cases h : u.dl.toNat = u.bacc.bytes.length + 1
  · rw [if_pos (show u.dl.toNat ≤ u.bacc.bytes.length + 1 by omega), if_pos h]
    exact SpUnit.completePacket_eq _ hv (by simp) (by simpa using h)
  · rw [if_neg (show ¬u.dl.toNat ≤ u.bacc.bytes.length + 1 by omega), if_neg h]

/-- What one byte leaves of a unit inside a stream: never a refusal; still inside a stream, or stopped by one of the two header
faults with the state of 60_exceptions.md R126. Configuration and lock stay. -/
theorem SpUnit.pushByte_cases (p : Params) (b : Byte) (u : SpUnit) (hr : u.Ready) :
    (∃ v packets, u.pushByte p b = .running v packets ∧ v.Ready ∧ v.tcLen = u.tcLen ∧ v.ancLen = u.ancLen
        ∧ v.lock = u.lock ∧ v.fault = u.fault ∧ v.err = u.err)
      ∨ (∃ h code, u.pushByte p b = .faulted (u.parsed p h) [] code
        ∧ u.state = .awaitingHeader ∧ u.bacc = ⟨[], 0⟩
        ∧ ((code = .spSecHdr ∧ (spDlFn p h).toNat < u.secLen)
          ∨ (code = .spCap ∧ u.secLen ≤ (spDlFn p h).toNat ∧ Config.spBodyCap < (spDlFn p h).toNat))) := by
  obtain ⟨hh, hb, hcase⟩ := hr
  rcases hcase with ⟨hs, h5, hbe, hv, hd⟩ | hbody
  · have hbacc : u.bacc = ⟨[], 0⟩ := by
      have hcur : u.bacc.cursor = 0 := by rw [hb.1, hbe]; rfl
      rw [← hbe, ← hcur]
    rw [SpUnit.pushByte_header p b u hh.1 hs h5]
    split
    · rename_i h6
      have h6l : (u.hacc.bytes ++ [b]).length = 6 := by simpa using h6
      rw [SpUnit.parseHeader_eq p { u with hacc := ⟨u.hacc.bytes ++ [b], 6⟩ } rfl h6l hbacc]
      simp only
      split
      · rename_i hlt
        exact .inr ⟨_, _, rfl, hs, hbacc, .inl ⟨rfl, hlt⟩⟩
      split
      · rename_i hge hcap
        exact .inr ⟨_, _, rfl, hs, hbacc, .inr ⟨rfl, Nat.le_of_not_lt hge, hcap⟩⟩
      split
      · refine .inl ⟨_, _, rfl, ⟨?_, ?_, .inl ?_⟩, rfl, rfl, rfl, rfl, rfl⟩ <;>
          simp [SpUnit.packetDone, SpUnit.parsed, Acc.Wf, SpUnit.InHeader]
      · rename_i hsec hcap hne
        refine .inl ⟨_, _, rfl, ⟨?_, ?_, .inr ⟨rfl, rfl, rfl, ?_, ?_, ?_⟩⟩, rfl, rfl, rfl, rfl, rfl⟩
        · simp [SpUnit.parsed, Acc.Wf]
        · simp [SpUnit.parsed, Acc.Wf, hbacc]
        · exact Nat.le_of_not_lt hsec
        · exact Nat.le_of_not_lt hcap
        · simp only [SpUnit.parsed, hbacc, List.length_nil] at hne ⊢
          omega
    · rename_i hne
      refine .inl ⟨_, _, rfl, ⟨⟨by simp, ?_⟩, hb, .inl ⟨hs, ?_, hbe, hv, hd⟩⟩, rfl, rfl, rfl, rfl, rfl⟩
      · simp only [Config.spHdrLen]; omega
      · simp only [List.length_append, List.length_cons, List.length_nil]; omega
  · rw [SpUnit.pushByte_body p b u hb hbody]
    obtain ⟨hs, hhe, hv, hsec, hcap, hlt⟩ := hbody
    simp only
    split
    · refine .inl ⟨_, _, rfl, ⟨hh, ?_, .inl ⟨rfl, ?_, rfl, rfl, rfl⟩⟩, rfl, rfl, rfl, rfl, rfl⟩
      · simp [SpUnit.packetDone, Acc.Wf]
      · simp [SpUnit.packetDone, hhe]
    · rename_i hne
      refine .inl ⟨_, _, rfl, ⟨hh, ⟨by simp, ?_⟩, .inr ⟨hs, hhe, hv, hsec, hcap, ?_⟩⟩, rfl, rfl, rfl, rfl, rfl⟩
      · show u.bacc.bytes.length + 1 ≤ Config.spBodyCap
        omega
      · simp only [List.length_append, List.length_cons, List.length_nil]; omega

/-- Packets emitted before a run that goes on. -/
theorem SpRun.after_nil (r : SpRun) : r.after [] = r := by cases r <;> simp [SpRun.after]

theorem SpRun.after_after (first second : List OutputUnit) (r : SpRun) :
    (r.after second).after first = r.after (first ++ second) := by
  cases r <;> simp [SpRun.after]

/-- SP_FEED's loop over two pieces: the second runs where the first left off, and not after a fault. -/
theorem SpUnit.pushBytes_append (p : Params) (xs ys : List Byte) (u : SpUnit) :
    SpUnit.pushBytes p (xs ++ ys) u
      = match SpUnit.pushBytes p xs u with
        | .running v first => (SpUnit.pushBytes p ys v).after first
        | .faulted v first code => .faulted v first code
        | .refused r => .refused r := by
  induction xs generalizing u with
  | nil => simp [SpUnit.pushBytes, SpRun.after_nil]
  | cons b rest ih =>
    simp only [List.cons_append, SpUnit.pushBytes]
    cases h1 : u.pushByte p b with
    | running v first =>
      simp only [ih v]
      cases SpUnit.pushBytes p rest v with
      | running w more => exact SpRun.after_after first more _
      | faulted w more code => simp [SpRun.after]
      | refused r => simp [SpRun.after]
    | faulted v first code => rfl
    | refused r => rfl

/-! ### A whole chunk -/

/-- A chunk that does not complete the body is kept (43_spacepacket.md R108). -/
theorem SpUnit.pushBytes_body_partial (p : Params) (c : List Byte) (u : SpUnit) (hw : u.bacc.Wf Config.spBodyCap)
    (hb : u.InBody) (h : u.bacc.bytes.length + c.length < u.dl.toNat) :
    SpUnit.pushBytes p c u
      = .running { u with bacc := ⟨u.bacc.bytes ++ c, u.bacc.bytes.length + c.length⟩ } [] := by
  induction c generalizing u with
  | nil => simp [SpUnit.pushBytes]; rw [← hw.1]
  | cons b r ih =>
    simp only [SpUnit.pushBytes, SpUnit.pushByte_body p b u hw hb]
    simp only [List.length_cons] at h
    obtain ⟨h1, h2, h3, h4, h5, h6⟩ := hb
    rw [if_neg (by omega)]
    simp only
    rw [ih { u with bacc := ⟨u.bacc.bytes ++ [b], u.bacc.bytes.length + 1⟩ }
      ⟨by simp, by simp only [Config.spBodyCap] at *; omega⟩ ⟨h1, h2, h3, h4, h5, by simp; omega⟩ (by simp; omega)]
    simp [SpRun.after]
    omega

/-- A chunk that completes the body: the packet, and then the rest of the chunk (43_spacepacket.md R108). -/
theorem SpUnit.pushBytes_body_complete (p : Params) (c : List Byte) (u : SpUnit) (hw : u.bacc.Wf Config.spBodyCap)
    (hb : u.InBody) (h : u.dl.toNat ≤ u.bacc.bytes.length + c.length) :
    SpUnit.pushBytes p c u
      = (SpUnit.pushBytes p ((u.bacc.bytes ++ c).drop u.dl.toNat) u.packetDone).after
          [u.packet ((u.bacc.bytes ++ c).take u.dl.toNat)] := by
  induction c generalizing u with
  | nil => have := hb.2.2.2.2.2; simp at h; omega
  | cons b r ih =>
    have hb' := hb
    obtain ⟨h1, h2, h3, h4, h5, h6⟩ := hb'
    simp only [SpUnit.pushBytes, SpUnit.pushByte_body p b u hw hb]
    by_cases he : u.dl.toNat = u.bacc.bytes.length + 1
    · have hl : u.dl.toNat = (u.bacc.bytes ++ [b]).length := by simpa using he
      have hc : u.bacc.bytes ++ b :: r = (u.bacc.bytes ++ [b]) ++ r := by simp
      rw [if_pos he, hc, hl, List.take_left, List.drop_left]
      rfl
    · rw [if_neg he]
      simp only
      simp only [List.length_cons] at h
      rw [ih { u with bacc := ⟨u.bacc.bytes ++ [b], u.bacc.bytes.length + 1⟩ }
        ⟨by simp, by simp only [Config.spBodyCap] at *; omega⟩ ⟨h1, h2, h3, h4, h5, by simp; omega⟩ (by simp; omega)]
      rw [SpRun.after_nil]
      simp [SpUnit.packetDone, SpUnit.packet, SpUnit.secLen]

/-- A chunk that does not complete the header is kept (43_spacepacket.md R106). -/
theorem SpUnit.pushBytes_header_partial (p : Params) (c : List Byte) (u : SpUnit)
    (hw : u.hacc.cursor = u.hacc.bytes.length) (hs : u.state = .awaitingHeader)
    (h : u.hacc.bytes.length + c.length < 6) :
    SpUnit.pushBytes p c u
      = .running { u with hacc := ⟨u.hacc.bytes ++ c, u.hacc.bytes.length + c.length⟩ } [] := by
  induction c generalizing u with
  | nil => simp [SpUnit.pushBytes]; rw [← hw]
  | cons b r ih =>
    simp only [List.length_cons] at h
    simp only [SpUnit.pushBytes, SpUnit.pushByte_header p b u hw hs (by omega)]
    rw [if_neg (by omega)]
    simp only
    rw [ih { u with hacc := ⟨u.hacc.bytes ++ [b], u.hacc.bytes.length + 1⟩ } (by simp) hs (by simp; omega)]
    simp [SpRun.after]
    omega

/-- A chunk that completes the header: its parse, and then the rest of the chunk (43_spacepacket.md R106, R107). -/
theorem SpUnit.pushBytes_header_complete (p : Params) (c : List Byte) (u : SpUnit)
    (hw : u.hacc.cursor = u.hacc.bytes.length) (hs : u.state = .awaitingHeader) (hb : u.bacc = ⟨[], 0⟩)
    (h5 : u.hacc.bytes.length ≤ 5) (h : 6 ≤ u.hacc.bytes.length + c.length) :
    SpUnit.pushBytes p c u
      = (let hdr := headerOfBytes ((u.hacc.bytes ++ c).take 6)
         let v := u.parsed p hdr
         let rest := (u.hacc.bytes ++ c).drop 6
         if (spDlFn p hdr).toNat < u.tcLen.toNat + u.ancLen.toNat then .faulted v [] .spSecHdr
         else if Config.spBodyCap < (spDlFn p hdr).toNat then .faulted v [] .spCap
         else if (spDlFn p hdr).toNat = 0 then (SpUnit.pushBytes p rest v.packetDone).after [v.packet []]
         else SpUnit.pushBytes p rest { v with state := .awaitingBody }) := by
  induction c generalizing u with
  | nil => simp at h; omega
  | cons b r ih =>
    simp only [List.length_cons] at h
    simp only [SpUnit.pushBytes, SpUnit.pushByte_header p b u hw hs (by omega)]
    by_cases he : u.hacc.bytes.length + 1 = 6
    · rw [if_pos he]
      have hl : (u.hacc.bytes ++ [b]).length = 6 := by simp; omega
      rw [SpUnit.parseHeader_eq p { u with hacc := ⟨u.hacc.bytes ++ [b], 6⟩ } rfl hl hb]
      have hc : u.hacc.bytes ++ b :: r = (u.hacc.bytes ++ [b]) ++ r := by simp
      have e1 : (u.hacc.bytes ++ b :: r).drop 6 = r := by rw [hc, ← hl, List.drop_left]
      have e2 : (u.hacc.bytes ++ b :: r).take 6 = u.hacc.bytes ++ [b] := by rw [hc, ← hl, List.take_left]
      rw [e1, e2]
      simp only [SpUnit.parsed, SpUnit.secLen]
      by_cases c1 : (spDlFn p (headerOfBytes (u.hacc.bytes ++ [b]))).toNat < u.tcLen.toNat + u.ancLen.toNat
      · simp only [c1, if_true]
      by_cases c2 : Config.spBodyCap < (spDlFn p (headerOfBytes (u.hacc.bytes ++ [b]))).toNat
      · simp only [c1, c2, if_true, if_false]
      by_cases c3 : (spDlFn p (headerOfBytes (u.hacc.bytes ++ [b]))).toNat = 0
      · rw [c3] at c1 c2
        simp only [c1, c2, c3, if_true, if_false]
      · simp only [c1, c2, c3, if_false, SpRun.after_nil]
    · rw [if_neg he]
      simp only
      rw [ih { u with hacc := ⟨u.hacc.bytes ++ [b], u.hacc.bytes.length + 1⟩ } (by simp) hs hb (by simp; omega)
        (by simp; omega)]
      rw [SpRun.after_nil]
      simp [SpUnit.parsed]

end Sys2Proof.Machine
end

