-- ==== Sys2Proof/Laws/Commands.lean ====
section
/-! SUPPORT. What a command with more than one ending can answer: one lemma per meaning, so that no later proof unfolds it. -/

namespace Sys2Proof.Machine

/-- Everything RDREG can answer (44_control.md R119). -/
theorem execRdreg_cases {reg : Byte} {s t : State} (h : execRdreg reg s = .next t) :
    (Reg.ofAddr reg = none ∧ t = s.refuse .badReg)
      ∨ (∃ r, Reg.ofAddr reg = some r ∧ t = s.finish .ok false [] (r.read s.block) s.block) := by
  unfold execRdreg at h
  split at h
  · rename_i hr; cases h; exact .inl ⟨hr, rfl⟩
  · rename_i r hr; cases h; exact .inr ⟨r, hr, rfl⟩

/-- Everything WRREG can answer (44_control.md R120). -/
theorem execWrreg_cases {reg : Byte} {data : Half} {s t : State} (h : execWrreg reg data s = .next t) :
    (∃ code, t = s.refuse code ∧ (code = .badReg ∨ code = .readOnly ∨ code = .locked ∨ code = .range))
      ∨ (∃ r, Reg.ofAddr reg = some r ∧ r.readOnly = false ∧ r.locked s.block = false ∧ r.fits data = true
          ∧ t = s.finish .ok false [] 0 (r.write data s.block)) := by
  unfold execWrreg at h
  split at h
  · cases h; exact .inl ⟨_, rfl, by simp⟩
  · rename_i r hr
    split at h
    · cases h; exact .inl ⟨_, rfl, by simp⟩
    rename_i h1
    split at h
    · cases h; exact .inl ⟨_, rfl, by simp⟩
    rename_i h2
    split at h
    · rename_i h3
      cases h
      exact .inr ⟨r, hr, by simpa using h1, by simpa using h2, h3, rfl⟩
    · cases h; exact .inl ⟨_, rfl, by simp⟩

/-- Everything CC_FEED can answer (41_cctalk.md R67). -/
theorem execCcFeed_cases {chunk : List Byte} {s t : State} (h : execCcFeed chunk s = .next t) :
    ∃ u frames,
      CcUnit.pushBytes chunk (({ s.block.cc with lock := true } : CcUnit).timingStep s.port.now) = .ok (u, frames)
        ∧ t = s.finish .ok (s.block.cc.desync s.port.now) frames 0 { s.block with cc := u } := by
  unfold execCcFeed at h
  simp only at h
  split at h
  · cases h
  · rename_i u frames hu
    cases h
    exact ⟨u, frames, hu, rfl⟩

/-- Everything SLIP_DEC can answer (42_slip.md R92, R95). -/
theorem execSlipDec_cases {chunk : List Byte} {s t : State} (h : execSlipDec chunk s = .next t) :
    (∃ out, s.block.slip.payload chunk = some out
        ∧ t = s.finish .ok false [.slipDec out] 0 { s.block with slip := { s.block.slip with lock := true } })
      ∨ (s.block.slip.payload chunk = none
        ∧ t = s.finish .slipFormat false [] 0 { s.block with slip := { s.block.slip with lock := true } }) := by
  have hp : ({ s.block.slip with lock := true } : SlipUnit).payload chunk = s.block.slip.payload chunk := by
    have hb (l : List Byte) :
        ({ s.block.slip with lock := true } : SlipUnit).decodeBody l = s.block.slip.decodeBody l := by
      induction hn : l.length using Nat.strong_induction_on generalizing l with
      | _ n ih =>
        match l with
        | [] => rfl
        | [b] => rfl
        | b :: x :: rest =>
          simp only [SlipUnit.decodeBody]
          rw [ih _ (by simp at hn; omega) rest rfl, ih _ (by simp at hn ⊢; omega) (x :: rest) rfl]
          rfl
    simp only [SlipUnit.payload, hb]
    rfl
  unfold execSlipDec at h
  simp only at h
  split at h
  · rename_i out ho
    cases h
    exact .inl ⟨out, by rw [← hp]; exact ho, rfl⟩
  · rename_i ho
    cases h
    exact .inr ⟨by rw [← hp]; exact ho, rfl⟩

/-- SP_FEED while SP_FAULT = 0 is its loop and what the loop's ending asks for (43_spacepacket.md R104). -/
theorem execSpFeed_eq {chunk : List Byte} {s : State} (hf : s.block.sp.fault = false) :
    execSpFeed chunk s
      = match SpUnit.pushBytes s.port.params chunk { s.block.sp with lock := true } with
        | .running u packets => .next (s.finish .ok false packets 0 { s.block with sp := u })
        | .faulted u packets code => .next (s.raiseFault code packets u)
        | .refused r => .refused r := by
  unfold execSpFeed
  exact if_neg (by simp [hf])

/-- Everything SP_FEED can answer (43_spacepacket.md R104). -/
theorem execSpFeed_cases {chunk : List Byte} {s t : State} (h : execSpFeed chunk s = .next t) :
    (s.block.sp.fault = true ∧ t = s.refuse .faulted)
      ∨ (s.block.sp.fault = false ∧ ∃ u packets,
          SpUnit.pushBytes s.port.params chunk { s.block.sp with lock := true } = .running u packets
            ∧ t = s.finish .ok false packets 0 { s.block with sp := u })
      ∨ (s.block.sp.fault = false ∧ ∃ u packets code,
          SpUnit.pushBytes s.port.params chunk { s.block.sp with lock := true } = .faulted u packets code
            ∧ t = s.raiseFault code packets u) := by
  cases hf : s.block.sp.fault
  · rw [execSpFeed_eq hf] at h
    split at h
    · rename_i u packets hu; cases h; exact .inr (.inl ⟨rfl, u, packets, hu, rfl⟩)
    · rename_i u packets code hu; cases h; exact .inr (.inr ⟨rfl, u, packets, code, hu, rfl⟩)
    · cases h
  · simp only [execSpFeed, hf, if_true] at h
    cases h
    exact .inl ⟨rfl, rfl⟩

/-- Everything SP_FLUSH can answer (43_spacepacket.md R114). -/
theorem execSpFlush_cases {s t : State} (h : execSpFlush s = .next t) :
    (s.block.sp.fault = true ∧ t = s.refuse .faulted)
      ∨ (s.block.sp.fault = false ∧ t = s.finish .ok false (s.block.sp.residue s.port.params.flushEmpty) 0
          { s.block with sp := s.block.sp.endStream }) := by
  unfold execSpFlush at h
  split at h
  · rename_i hf; cases h; exact .inl ⟨hf, rfl⟩
  · rename_i hf; cases h; exact .inr ⟨by simpa using hf, rfl⟩

/-- Everything SP_DISCARD can answer (43_spacepacket.md R116). -/
theorem execSpDiscard_cases {s t : State} (h : execSpDiscard s = .next t) :
    (s.block.sp.fault = true ∧ t = s.refuse .faulted)
      ∨ (s.block.sp.fault = false ∧ t = s.finish .ok false [] 0 { s.block with sp := s.block.sp.endStream }) := by
  unfold execSpDiscard at h
  split at h
  · rename_i hf; cases h; exact .inl ⟨hf, rfl⟩
  · rename_i hf; cases h; exact .inr ⟨by simpa using hf, rfl⟩

end Sys2Proof.Machine
end

