-- ==== Sys2Proof/Laws/Encoding.lean ====
section
/-! SUPPORT. Words, their bytes and their fields (20_memory.md R36, 30_encoding.md R45): taking apart and putting together. -/

namespace Sys2Proof

/-- The bytes of the word made of four bytes are those bytes. -/
theorem bytesOfWord_wordOfBytes (b0 b1 b2 b3 : Byte) : bytesOfWord (wordOfBytes b0 b1 b2 b3) = [b0, b1, b2, b3] := by
  simp only [bytesOfWord, wordOfBytes, byteAt, List.cons.injEq, and_true]
  refine ⟨?_, ?_, ?_, ?_⟩ <;> refine BitVec.eq_of_getLsbD_eq fun k hk => ?_ <;> simp [hk] <;> grind

/-- The word made of a word's bytes is that word. -/
theorem wordOfBytes_bytesOfWord (w : Word) : wordOfBytes (byteAt 3 w) (byteAt 2 w) (byteAt 1 w) (byteAt 0 w) = w := by
  simp only [wordOfBytes, byteAt]
  refine BitVec.eq_of_getLsbD_eq fun k hk => ?_
  simp [hk]
  grind

/-- A word is its OPC, REG and DATA fields. -/
theorem word_eq_fields (w : Word) : opcField w ++ regField w ++ dataField w = w := by
  simp only [opcField, regField, dataField]
  refine BitVec.eq_of_getLsbD_eq fun k hk => ?_
  simp [hk]
  grind

/-- The reserved bits of format N are the REG and DATA fields (30_encoding.md R46). -/
theorem lowField_eq_fields (w : Word) : lowField w = regField w ++ dataField w := by
  simp only [lowField, regField, dataField]
  refine BitVec.eq_of_getLsbD_eq fun k hk => ?_
  simp [hk]
  grind

end Sys2Proof
end

