-- ==== Sys2Proof/Laws/Fetch.lean ====
section
/-! SUPPORT. What taking bytes from the host can do (30_encoding.md R51, 70_reset_and_hazards.md R132). -/

namespace Sys2Proof.Machine

/-- Enough bytes at the front: they are taken, with the stamp of the last. -/
theorem takeBytes_stamped (stamps : List Word) (bytes : List Byte) (hl : stamps.length = bytes.length) (time : Word)
    (rest : List HostEvent) :
    takeBytes bytes.length time (stamped stamps bytes ++ rest) = .got bytes (stamps.getLastD time) rest := by
  induction bytes generalizing stamps time with
  | nil => cases stamps <;> simp_all [takeBytes, stamped]
  | cons b bytes ih =>
    cases stamps with
    | nil => simp at hl
    | cons t stamps =>
      have := ih stamps (by simpa using hl) t
      simp only [stamped] at this
      simp [stamped, takeBytes, this, Taken.cons, List.getLastD]
      cases stamps <;> simp

/-- Fewer bytes than asked for, and then nothing: the block waits. -/
theorem takeBytes_short (n : Nat) (stamps : List Word) (bytes : List Byte) (hl : stamps.length = bytes.length)
    (hn : bytes.length < n) (time : Word) : takeBytes n time (stamped stamps bytes) = .starved := by
  induction n generalizing stamps bytes time with
  | zero => omega
  | succ n ih =>
    cases bytes with
    | nil => cases stamps <;> simp_all [takeBytes, stamped]
    | cons b bytes =>
      cases stamps with
      | nil => simp at hl
      | cons t stamps =>
        have := ih stamps bytes (by simpa using hl) (by simpa using hn) t
        simp only [stamped] at this
        simp [stamped, takeBytes, this, Taken.cons]

/-- Fewer bytes than asked for, and then the reset input: it cuts them off. -/
theorem takeBytes_cut (n : Nat) (stamps : List Word) (bytes : List Byte) (hl : stamps.length = bytes.length)
    (hn : bytes.length < n) (time : Word) (rest : List HostEvent) :
    takeBytes n time (stamped stamps bytes ++ .resetInput :: rest) = .cut rest := by
  induction n generalizing stamps bytes time with
  | zero => omega
  | succ n ih =>
    cases bytes with
    | nil => cases stamps <;> simp_all [takeBytes, stamped]
    | cons b bytes =>
      cases stamps with
      | nil => simp at hl
      | cons t stamps =>
        have := ih stamps bytes (by simpa using hl) (by simpa using hn) t
        simp only [stamped] at this
        simp [stamped, takeBytes, this, Taken.cons]

/-- What a fetch can answer: a command comes with the word's four bytes and its whole data phase. -/
theorem State.fetch_command {s : State} {bytes : List Byte} {now : Word} {rest : List HostEvent}
    (h : s.fetch = .command bytes now rest) :
    ∃ word data, bytes = word ++ data ∧
      (∃ after time, takeBytes 4 s.port.now s.port.input = .got word now after
        ∧ takeBytes (dataPhaseOf word) now after = .got data time rest) := by
  unfold State.fetch at h
  split at h
  · cases h
  · cases h
  · rename_i word now' after h4
    split at h
    · cases h
    · cases h
    · rename_i data time rest' hd
      simp only [Fetched.command.injEq] at h
      obtain ⟨rfl, rfl, rfl⟩ := h
      exact ⟨word, data, rfl, after, time, h4, hd⟩

end Sys2Proof.Machine
end

