-- ==== Sys2Proof/Laws/PerInstr.lean ====
section
/-! SUPPORT. Facts about each command as syntax, one lemma per constructor. -/

namespace Sys2Proof.Laws

/-- The encoding of a command is its word's four bytes and its chunk, and its word holds the opcode, REG and DATA or LEN in
their fields (30_encoding.md R45). -/
def EncodedFields.Statement (i : Instr) : Prop :=
  (encode i).length = 4 + i.chunk.length ∧ opcField (encodeWord i) = i.opcode
    ∧ regField (encodeWord i) = i.regOperand ∧ dataField (encodeWord i) = i.dataOperand

/-- The three fields of a word put together, read back. -/
theorem fields_of_append (opc reg : Byte) (data : Half) :
    opcField (opc ++ reg ++ data) = opc ∧ regField (opc ++ reg ++ data) = reg
      ∧ dataField (opc ++ reg ++ data) = data := by
  simp only [opcField, regField, dataField]
  refine ⟨?_, ?_, ?_⟩ <;> refine BitVec.eq_of_getLsbD_eq fun k hk => ?_ <;> simp [hk] <;> grind

theorem EncodedFields.all (i : Instr) : EncodedFields.Statement i := by
  obtain ⟨h1, h2, h3⟩ := fields_of_append i.opcode i.regOperand i.dataOperand
  exact ⟨by simp [encode, bytesOfWord]; omega, h1, h2, h3⟩

theorem EncodedFields.nop : EncodedFields.Statement .nop := EncodedFields.all _
theorem EncodedFields.reset : EncodedFields.Statement .reset := EncodedFields.all _
theorem EncodedFields.rdreg (reg : Byte) : EncodedFields.Statement (.rdreg reg) := EncodedFields.all _
theorem EncodedFields.wrreg (reg : Byte) (data : Half) : EncodedFields.Statement (.wrreg reg data) := EncodedFields.all _
theorem EncodedFields.ccFeed (chunk : List Byte) : EncodedFields.Statement (.ccFeed chunk) := EncodedFields.all _
theorem EncodedFields.ccDiscard : EncodedFields.Statement .ccDiscard := EncodedFields.all _
theorem EncodedFields.slipEnc (chunk : List Byte) : EncodedFields.Statement (.slipEnc chunk) := EncodedFields.all _
theorem EncodedFields.slipDec (chunk : List Byte) : EncodedFields.Statement (.slipDec chunk) := EncodedFields.all _
theorem EncodedFields.spFeed (chunk : List Byte) : EncodedFields.Statement (.spFeed chunk) := EncodedFields.all _
theorem EncodedFields.spFlush : EncodedFields.Statement .spFlush := EncodedFields.all _
theorem EncodedFields.spDiscard : EncodedFields.Statement .spDiscard := EncodedFields.all _

end Sys2Proof.Laws
end

