-- ==== Sys2Proof/Tests/Slice0.lean ====
section
/-! SUPPORT. The model's own tests. Expected values are those of 95_test_vectors.md, by the vector's number, or are written out
from an encoding table of the spec. `witness_<Name>` shows a state and operands that meet the hypotheses of the obligation
of that name, clause by clause. -/

open Sys2Proof Sys2Proof.Machine

namespace Sys2Proof.Tests

/-! ### Helpers -/

/-- The next state, if there is one. -/
def nextOf : Host.Outcome State Fault Refusal → Option State
  | .next s => some s
  | .fault _ => none
  | .refused _ => none

/-- `s` with the bytes of a command sent next, each at TIME `time`. -/
def sent (time : Word) (i : Instr) (s : State) : State :=
  { s with port := { s.port with input := sendAt time i ++ s.port.input } }

/-- The responses and records after one step on a command sent to `s`. -/
def seen (time : Word) (i : Instr) (s : State) : Option (List Response × List Record) :=
  (nextOf (step (sent time i s))).map fun t => (t.port.responses, t.port.output)

/-- The block after one step on a command sent to `s`. -/
def block (time : Word) (i : Instr) (s : State) : Option Block := (nextOf (step (sent time i s))).map State.block

/-- From reset, with another CC unit. -/
def withCc (f : CcUnit → CcUnit) : State := { State.reset with block := { Block.reset with cc := f Block.reset.cc } }

/-- From reset, with another SLIP unit. -/
def withSlip (f : SlipUnit → SlipUnit) : State := { State.reset with block := { Block.reset with slip := f Block.reset.slip } }

/-- From reset, with another SP unit. -/
def withSp (f : SpUnit → SpUnit) : State := { State.reset with block := { Block.reset with sp := f Block.reset.sp } }

/-- `s` with SP_DL_FN equal to `dl` on the header `h`. -/
def withDl (h : Header) (dl : Word) (s : State) : State :=
  { s with port := { s.port with params := { s.port.params with dlTable := [(h, dl)] } } }

/-- `s` with TIME sampled at `now`. -/
def at_ (now : Word) (s : State) : State := { s with port := { s.port with now := now } }

/-- V9 after its first command: three bytes held, sampled at 1000. -/
def ccHeld : State := withCc fun u => { u with acc := ⟨[0x01, 0x03, 0xAA], 3⟩, lastTime := 1000, lastValid := true, lock := true }

/-- V57 after its first command: two of five body bytes held. -/
def spBody : State :=
  withSp fun u =>
    { u with state := .awaitingBody, bacc := ⟨[0x11, 0x22], 2⟩, hdr := ⟨0x08, 0x01, 0xC0, 0, 0, 0x04⟩, hdrValid := true, dl := 5,
             lock := true }

/-- V53 after its last command. -/
def spFaulted : State :=
  withSp fun u =>
    { u with hdr := ⟨0x08, 0x01, 0xC0, 0, 0, 0x03⟩, hdrValid := true, dl := 4, tcLen := 8, lock := true, fault := true, err := 0x80 }

/-- V14 a, configured: START 7E with its substitute 5E. -/
def slipStart : State := withSlip fun u => { u with ctrl := 3, startByte := 0x7E, escStart := 0x5E }

/-- V52, configured: START 7E and the quirk. -/
def slipQuirk : State := withSlip fun u => { u with ctrl := 5, startByte := 0x7E }

/-! ### WellFormed -/

/-- 00_scope.md R5: MAX_CHUNK is 65535. -/
theorem test_wellFormed_longest : Instr.WellFormed (.ccFeed (List.replicate 65535 0)) := by
  simp [Instr.WellFormed, Instr.wellFormed, Instr.chunk, Config.maxChunk, -List.reduceReplicate]

theorem test_wellFormed_tooLong : ¬ Instr.WellFormed (.ccFeed (List.replicate 65536 0)) := by
  simp [Instr.WellFormed, Instr.wellFormed, Instr.chunk, Config.maxChunk, -List.reduceReplicate]

/-! ### Decoding: one word of each command, written out from 30_encoding.md R45 to R49, and words that are no command -/

theorem test_decode_nop : decode [0x00, 0x00, 0x00, 0x00] = .ok (.nop, []) := by decide
theorem test_decode_reset : decode [0x01, 0x00, 0x00, 0x00] = .ok (.reset, []) := by decide
theorem test_decode_rdreg : decode [0x02, 0x13, 0x00, 0x00] = .ok (.rdreg 0x13, []) := by decide
theorem test_decode_wrreg : decode [0x03, 0x23, 0x01, 0xC0] = .ok (.wrreg 0x23 0x01C0, []) := by decide
theorem test_decode_ccFeed : decode [0x10, 0x00, 0x00, 0x02, 0x01, 0x00, 0x7F] = .ok (.ccFeed [0x01, 0x00], [0x7F]) := by decide
theorem test_decode_ccDiscard : decode [0x11, 0x00, 0x00, 0x00] = .ok (.ccDiscard, []) := by decide
theorem test_decode_slipEnc : decode [0x20, 0x00, 0x00, 0x01, 0xC0] = .ok (.slipEnc [0xC0], []) := by decide
theorem test_decode_slipDec : decode [0x21, 0x00, 0x00, 0x03, 0xDB, 0xDC, 0xC0] = .ok (.slipDec [0xDB, 0xDC, 0xC0], []) := by decide
theorem test_decode_spFeed : decode [0x30, 0x00, 0x00, 0x00] = .ok (.spFeed [], []) := by decide
theorem test_decode_spFlush : decode [0x31, 0x00, 0x00, 0x00] = .ok (.spFlush, []) := by decide
theorem test_decode_spDiscard : decode [0x32, 0x00, 0x00, 0x00] = .ok (.spDiscard, []) := by decide

/-- V19, V20, V21, V22, V24; and a data phase that is not all there. -/
theorem test_decode_refusals :
    decode [0x00, 0x00, 0x00, 0x01] = .error .reservedBits ∧ decode [0x04, 0x00, 0x00, 0x00] = .error .unknownOpcode
      ∧ decode [0xFF, 0x12, 0x34, 0x56] = .error .unknownOpcode
      ∧ decode [0x10, 0x01, 0x00, 0x02, 0x01, 0x00] = .error .reservedBits
      ∧ decode [0x02, 0x00, 0x00, 0x01] = .error .reservedBits ∧ decode [0x31, 0x00, 0x01, 0x00] = .error .reservedBits
      ∧ decode [0x10, 0x00, 0x00, 0x02, 0x01] = .error .truncated := by decide

/-- 20_memory.md R36: LEN is big-endian. -/
theorem test_encode_len : (encode (.ccFeed (List.replicate 260 0))).take 4 = [0x10, 0x00, 0x01, 0x04] := by
  simp [encode, bytesOfWord, encodeWord, Instr.dataOperand, Instr.opcode, Instr.regOperand, byteAt, -List.reduceReplicate]

/-- The words of spec/opcode_table.json, operands zero, as the host numbers their bits. -/
theorem test_tableWords :
    ([0x00000000, 0x01000000, 0x02000000, 0x03000000, 0x10000000, 0x11000000, 0x20000000, 0x21000000, 0x30000000,
        0x31000000, 0x32000000].map (decodeTableWord 32))
      = [some .nop, some .reset, some (.rdreg 0), some (.wrreg 0 0), some (.ccFeed []), some .ccDiscard, some (.slipEnc []),
          some (.slipDec []), some (.spFeed []), some .spFlush, some .spDiscard] := by decide

/-- Such a word runs as the first command after reset. -/
theorem test_tableWord_runs :
    (nextOf (step (State.reset.withFetchWord 32 0x02100000))).map (·.port.responses) = some [⟨0, 0x32⟩] := by decide

/-! ### Block control -/

/-- V18. -/
theorem test_nop : seen 0 .nop ccHeld = some ([⟨0, 0⟩], []) ∧ block 0 .nop ccHeld = some { ccHeld.block with cmdCount := 1 } := by
  decide

/-- V35, P4: RESET clears locks, buffers and the fault. -/
theorem test_reset : block 0 .reset spFaulted = some Block.reset ∧ seen 0 .reset spFaulted = some ([⟨0, 0⟩], []) := by decide

/-- V57, V53: STATUS. -/
theorem test_rdreg_status :
    seen 0 (.rdreg 0x00) spBody = some ([⟨0, 0x4C⟩], []) ∧ seen 0 (.rdreg 0x00) spFaulted = some ([⟨0, 0x54⟩], []) := by decide

/-- V53: SP_HDR_W0, SP_HDR_W1, SP_DL. V28: no such register. -/
theorem test_rdreg_header :
    seen 0 (.rdreg 0x35) spFaulted = some ([⟨0, 0x0801C000⟩], []) ∧ seen 0 (.rdreg 0x36) spFaulted = some ([⟨0, 0x0003⟩], [])
      ∧ seen 0 (.rdreg 0x34) spFaulted = some ([⟨0, 4⟩], []) ∧ seen 0 (.rdreg 0xFF) spFaulted = some ([⟨0x02000000, 0⟩], []) := by
  decide

/-- V32. -/
theorem test_wrreg_stores :
    (block 0 (.wrreg 0x20 7) State.reset).map (·.slip.ctrl) = some 7
      ∧ (block 0 (.wrreg 0x10 0xFFFF) State.reset).map (·.cc.maxDelay) = some 0xFFFF := by decide

/-- V29, V30, V31, V33, V34. -/
theorem test_wrreg_refusals :
    seen 0 (.wrreg 0x05 0) State.reset = some ([⟨0x02000000, 0⟩], []) ∧ seen 0 (.wrreg 0x11 0) ccHeld = some ([⟨0x03000000, 0⟩], [])
      ∧ seen 0 (.wrreg 0x10 100) ccHeld = some ([⟨0x04000000, 0⟩], [])
      ∧ seen 0 (.wrreg 0x23 0x1C0) (withSlip fun u => { u with lock := true }) = some ([⟨0x04000000, 0⟩], [])
      ∧ seen 0 (.wrreg 0x20 8) State.reset = some ([⟨0x05000000, 0⟩], [])
      ∧ seen 0 (.wrreg 0x23 0x100) State.reset = some ([⟨0x05000000, 0⟩], []) := by decide

/-! ### CC -/

/-- V9: a gap of 51 discards, in the command that frames the new chunk; a gap of 50 does not. -/
theorem test_ccFeed_timeout :
    seen 1051 (.ccFeed [0x01, 0x00, 0x02, 0x03, 0x04]) ccHeld
        = some ([⟨0x00010001, 0⟩], [⟨0x01, 5, [0x01, 0x00, 0x02, 0x03, 0x04]⟩])
      ∧ seen 1050 (.ccFeed [0x01, 0x00, 0x02, 0x03, 0x04]) ccHeld
        = some ([⟨0x00000001, 0⟩], [⟨0x01, 8, [0x01, 0x03, 0xAA, 0x01, 0x00, 0x02, 0x03, 0x04]⟩]) := by decide

/-- V8: two frames and a remainder from one chunk; the lock and the sample of V1. -/
theorem test_ccFeed_frames :
    seen 0 (.ccFeed [0xAA, 0x01, 0xBB, 0xCC, 0xDD, 0xEE, 0x02, 0x00, 0x03, 0x04, 0x05, 0x06, 0x07]) State.reset
        = some ([⟨0x00000002, 0⟩], [⟨0x01, 6, [0xAA, 0x01, 0xBB, 0xCC, 0xDD, 0xEE]⟩, ⟨0x01, 5, [0x02, 0x00, 0x03, 0x04, 0x05]⟩])
      ∧ (block 0 (.ccFeed [0x06, 0x07]) State.reset).map (·.cc)
        = some { Block.reset.cc with acc := ⟨[0x06, 0x07], 2⟩, lastValid := true, lock := true } := by decide

/-- V42, V43. -/
theorem test_ccDiscard :
    (block 0 .ccDiscard ccHeld).map (·.cc) = some { ccHeld.block.cc with acc := ⟨[], 0⟩ }
      ∧ (block 0 .ccDiscard State.reset).map (·.cc.lock) = some false := by decide

/-! ### SLIP -/

/-- V13, V14 a. -/
theorem test_slipEnc_escapes :
    seen 0 (.slipEnc [0x01, 0xC0, 0xDB, 0x02]) State.reset
        = some ([⟨1, 0⟩], [⟨0x02, 7, [0x01, 0xDB, 0xDC, 0xDB, 0xDD, 0x02, 0xC0]⟩])
      ∧ seen 0 (.slipEnc [0x7E, 0x41]) slipStart = some ([⟨1, 0⟩], [⟨0x02, 5, [0x7E, 0xDB, 0x5E, 0x41, 0xC0]⟩]) := by decide

/-- V52, V3 a. -/
theorem test_slipEnc_quirk :
    seen 0 (.slipEnc [0xC0, 0xDB]) slipQuirk = some ([⟨1, 0⟩], [⟨0x02, 7, [0xC0, 0x7E, 0xDB, 0xDC, 0xDB, 0xDD, 0xC0]⟩])
      ∧ seen 0 (.slipEnc []) slipQuirk = some ([⟨0, 0⟩], []) := by decide

/-- V13, V14 a. -/
theorem test_slipDec_payload :
    seen 0 (.slipDec [0x01, 0xDB, 0xDC, 0xDB, 0xDD, 0x02, 0xC0]) State.reset
        = some ([⟨1, 0⟩], [⟨0x03, 4, [0x01, 0xC0, 0xDB, 0x02]⟩])
      ∧ seen 0 (.slipDec [0x7E, 0xDB, 0x5E, 0x41, 0xC0]) slipStart = some ([⟨1, 0⟩], [⟨0x03, 2, [0x7E, 0x41]⟩]) := by decide

/-- V46, V47, V48, V49. -/
theorem test_slipDec_format :
    seen 0 (.slipDec []) State.reset = some ([⟨0x06000000, 0⟩], []) ∧ seen 0 (.slipDec [0x01, 0x02]) State.reset = some ([⟨0x06000000, 0⟩], [])
      ∧ seen 0 (.slipDec [0xDB, 0xC0]) State.reset = some ([⟨0x06000000, 0⟩], [])
      ∧ seen 0 (.slipDec [0x01, 0xC0, 0x02, 0xC0]) State.reset = some ([⟨0x06000000, 0⟩], [])
      ∧ seen 0 (.slipDec [0xDB, 0x41, 0xC0]) State.reset = some ([⟨0x06000000, 0⟩], []) := by decide

/-! ### SP -/

/-- V16: both fields of the secondary header. -/
theorem test_spFeed_packet :
    seen 0 (.spFeed [0x08, 0x01, 0xC0, 0, 0, 0x03, 0xA1, 0xB1, 0xB2, 0xD1]) (withSp fun u => { u with tcLen := 1, ancLen := 2 })
      = some ([⟨1, 0⟩],
          [⟨0x04, 0x0F, [0x07, 0, 1, 0, 2, 0x08, 0x01, 0xC0, 0, 0, 0x03, 0xA1, 0xB1, 0xB2, 0xD1]⟩]) := by decide

/-- V55: a fault after one packet, the rest dropped. V62: SP_DL above the capacity. -/
theorem test_spFeed_faults :
    seen 0 (.spFeed [0x08, 0x01, 0xC0, 0, 0, 0x02, 0xAA, 0xBB, 0x01, 0x08, 0x01, 0xC0, 0x01, 0, 0, 0x99])
          (withSp fun u => { u with tcLen := 2 })
        = some ([⟨0x80000001, 0⟩], [⟨0x04, 0x0E, [0x03, 0, 2, 0, 0, 0x08, 0x01, 0xC0, 0, 0, 0x02, 0xAA, 0xBB, 0x01]⟩])
      ∧ seen 0 (.spFeed [0x08, 0x01, 0xC0, 0, 0, 0]) (withDl ⟨0x08, 0x01, 0xC0, 0, 0, 0⟩ 70000 State.reset)
        = some ([⟨0x82000000, 0⟩], []) := by decide

/-- V57, V58. -/
theorem test_spFlush :
    seen 0 .spFlush spBody = some ([⟨1, 0⟩], [⟨0x05, 2, [0x11, 0x22]⟩])
      ∧ (block 0 .spFlush spBody).map (·.sp) = some { Block.reset.sp with hdr := ⟨0x08, 0x01, 0xC0, 0, 0, 0x04⟩, lock := true }
      ∧ seen 0 .spFlush State.reset = some ([⟨1, 0⟩], [⟨0x05, 0, []⟩]) := by decide

/-- V59, V54. -/
theorem test_spDiscard :
    seen 0 .spDiscard spBody = some ([⟨0, 0⟩], [])
      ∧ (block 0 .spDiscard spBody).map (·.sp) = some { Block.reset.sp with hdr := ⟨0x08, 0x01, 0xC0, 0, 0, 0x04⟩, lock := true }
      ∧ seen 0 .spDiscard spFaulted = some ([⟨0x07000000, 0⟩], []) := by decide

/-! ### A response on a byte-wide link (20_memory.md R36, V27) -/

theorem test_response_wire :
    (nextOf (step (sent 0 (.rdreg 0x02) { State.reset with block := { Block.reset with cmdCount := 2 } }))).map
        State.responseStream = some [0x00, 0x00, 0x00, 0x00, 0x00, 0x00, 0x00, 0x02]
      ∧ (nextOf (step (State.reset.withFetchWord 32 0x04000000))).map State.responseStream
        = some [0x01, 0x00, 0x00, 0x00, 0x00, 0x00, 0x00, 0x00] := by decide

/-! ### The accumulator (V64 to V67) -/

theorem test_accumulator :
    Acc.take ⟨[0x01, 0x00, 0x02, 0x03, 0x04, 0x05, 0x02, 0xAA], 8⟩ 5 = .ok ([0x01, 0x00, 0x02, 0x03, 0x04], ⟨[0x05, 0x02, 0xAA], 3⟩)
      ∧ Acc.readAt ⟨[0x05, 0x02, 0xAA], 3⟩ 1 = .ok 0x02
      ∧ Acc.append 260 ⟨[0x05, 0x02, 0xAA], 3⟩ 0xBB = .ok ⟨[0x05, 0x02, 0xAA, 0xBB], 4⟩
      ∧ Acc.take ⟨[0x05, 0x02, 0xAA], 3⟩ 0 = .ok ([], ⟨[0x05, 0x02, 0xAA], 3⟩)
      ∧ Acc.append 3 ⟨[0x05, 0x02, 0xAA], 3⟩ 0xBB = .error .accAppendFull
      ∧ Acc.readAt ⟨[0x05, 0x02, 0xAA], 3⟩ 3 = .error .accAtOutOfRange
      ∧ Acc.take ⟨[0x05, 0x02, 0xAA], 3⟩ 4 = .error .accTakeTooMany := by decide

/-! ### Witnesses: the hypotheses of each obligation can be met -/

theorem ccHeld_inv : ccHeld.Inv := ⟨by decide, by decide⟩
theorem spBody_inv : spBody.Inv := ⟨by decide, by decide⟩
theorem spFaulted_inv : spFaulted.Inv := ⟨by decide, by decide⟩
theorem reset_inv : State.reset.Inv := ⟨by decide, by decide⟩

/-- CC_ACC one byte short of a frame of 20, and SP one byte short of its header, are in the invariant too. -/
theorem boundary_inv :
    (withCc fun u => { u with acc := ⟨0x00 :: 0x0F :: List.replicate 17 0, 19⟩, lastValid := true, lock := true }).Inv
      ∧ (withSp fun u => { u with hacc := ⟨[1, 2, 3, 4, 5], 5⟩, lock := true }).Inv :=
  ⟨⟨by decide, by decide⟩, ⟨by decide, by decide⟩⟩

theorem witness_StepKeepsInvariant :
    (sent 1051 (.ccFeed [0xBB]) ccHeld).Inv ∧ (∃ t, step (sent 1051 (.ccFeed [0xBB]) ccHeld) = .next t)
      ∧ (sent 0 (.spFeed [0x33]) spBody).Inv ∧ (∃ t, step (sent 0 (.spFeed [0x33]) spBody) = .next t) :=
  ⟨⟨by decide, by decide⟩, ⟨_, rfl⟩, ⟨by decide, by decide⟩, ⟨_, rfl⟩⟩

theorem witness_StepAlwaysAnswersNext : (sent 0 (.slipDec [0xC0]) spFaulted).Inv := ⟨by decide, by decide⟩

theorem witness_EveryRunCompletes : (sent 1000 .reset ccHeld).Inv := ⟨by decide, by decide⟩

theorem witness_DecodeInvertsEncode :
    Instr.WellFormed (.wrreg 0xFF 0xFFFF) ∧ Instr.WellFormed (.spFeed []) ∧ Instr.WellFormed (.ccFeed (List.replicate 65535 0)) :=
  ⟨by decide, by decide, test_wellFormed_longest⟩

theorem witness_EncodeInvertsDecode : decode [0x20, 0x00, 0x00, 0x01, 0x41, 0x31] = .ok (.slipEnc [0x41], [0x31]) := by decide

theorem witness_StepRunsTheDecodedCommand :
    Instr.WellFormed (.ccFeed [0x01]) ∧ ([5, 6, 7, 8, 9] : List Word).length = (encode (.ccFeed [0x01])).length
      ∧ ({ State.reset with port := { State.reset.port with input :=
            [.byte 5 0x10, .byte 6 0x00, .byte 7 0x00, .byte 8 0x01, .byte 9 0x01, .resetInput] } } : State).port.input
          = stamped [5, 6, 7, 8, 9] (encode (.ccFeed [0x01])) ++ [.resetInput] := by decide

/-- V23. -/
theorem witness_UnknownOpcodeIsRefusedWithoutDataPhase :
    BitVec.extractLsb' 24 8 (0x22000002 : Word)
        ∉ ([0x00, 0x01, 0x02, 0x03, 0x10, 0x11, 0x20, 0x21, 0x30, 0x31, 0x32] : List Byte)
      ∧ ([0, 0, 0, 0] : List Word).length = 4
      ∧ ({ State.reset with port := { State.reset.port with input :=
            [.byte 0 0x22, .byte 0 0x00, .byte 0 0x00, .byte 0 0x02, .byte 0 0x00] } } : State).port.input
          = stamped [0, 0, 0, 0] (bytesOfWord 0x22000002) ++ [.byte 0 0x00] := by decide

/-- V19, V22, V21, and V21's word with no data bytes. -/
theorem witness_ReservedBitsAreRefused :
    (∃ w : Word, w.extractLsb' 24 8 ∈ ([0x00, 0x01, 0x11, 0x31, 0x32] : List Byte) ∧ w.extractLsb' 0 24 ≠ 0)
      ∧ (∃ w : Word, w.extractLsb' 24 8 = 0x02 ∧ w.extractLsb' 0 16 ≠ 0)
      ∧ (∃ w : Word, w.extractLsb' 24 8 ∈ ([0x10, 0x20, 0x21, 0x30] : List Byte) ∧ w.extractLsb' 16 8 ≠ 0
          ∧ ([0x01, 0x00] : List Byte).length = (w.extractLsb' 0 16).toNat
          ∧ (stamped [0, 0, 0, 0, 0, 0] (bytesOfWord w ++ [0x01, 0x00])).length = 6)
      ∧ (∃ w : Word, w.extractLsb' 24 8 ∈ ([0x10, 0x20, 0x21, 0x30] : List Byte) ∧ w.extractLsb' 16 8 ≠ 0
          ∧ ([] : List Byte).length = (w.extractLsb' 0 16).toNat) :=
  ⟨⟨0x00000001, by decide⟩, ⟨0x02000001, by decide⟩, ⟨0x10010002, by decide⟩, ⟨0x10010000, by decide⟩⟩

/-- Cut inside the word, and inside the data phase. -/
theorem witness_StepWaitsForTheWholeCommand :
    Instr.WellFormed (.ccFeed [0x01, 0x02]) ∧ ([0x10, 0x00] : List Byte) <+: encode (.ccFeed [0x01, 0x02])
      ∧ ([0x10, 0x00] : List Byte) ≠ encode (.ccFeed [0x01, 0x02])
      ∧ ([0x10, 0x00, 0x00, 0x02, 0x01] : List Byte) <+: encode (.ccFeed [0x01, 0x02])
      ∧ ([0x10, 0x00, 0x00, 0x02, 0x01] : List Byte) ≠ encode (.ccFeed [0x01, 0x02])
      ∧ (at_ 0 { State.reset with port := { State.reset.port with input := [.byte 3 0x10, .byte 4 0x00] } }).port.input
          = stamped [3, 4] [0x10, 0x00] := by decide

theorem witness_ResetInputAbandonsACommand :
    Instr.WellFormed (.spFeed [0x01]) ∧ ([0x30, 0x00, 0x00, 0x01] : List Byte) <+: encode (.spFeed [0x01])
      ∧ ([0x30, 0x00, 0x00, 0x01] : List Byte) ≠ encode (.spFeed [0x01])
      ∧ ([0, 0, 0, 0] : List Word).length = ([0x30, 0x00, 0x00, 0x01] : List Byte).length
      ∧ ({ State.reset with port := { State.reset.port with input :=
            [.byte 0 0x30, .byte 0 0x00, .byte 0 0x00, .byte 0 0x01, .resetInput, .byte 0 0x00] } } : State).port.input
          = stamped [0, 0, 0, 0] [0x30, 0x00, 0x00, 0x01] ++ .resetInput :: [.byte 0 0x00] := by decide

theorem witness_EveryCommandIsCounted : (∃ t, exec .reset ccHeld = .next t) ∧ ∃ t, exec .nop ccHeld = .next t :=
  ⟨⟨_, rfl⟩, ⟨_, rfl⟩⟩

theorem witness_EveryCommandGivesOneResponse :
    (∃ t, exec (.rdreg 0x02) State.reset = .next t) ∧ (∃ t, exec (.rdreg 0xFF) State.reset = .next t)
      ∧ ∃ t, exec (.slipDec []) State.reset = .next t := ⟨⟨_, rfl⟩, ⟨_, rfl⟩, ⟨_, rfl⟩⟩

theorem witness_RecordCountFitsNout :
    State.reset.Inv ∧ Instr.WellFormed (.ccFeed [0x01, 0x00, 0x02, 0x03, 0x04])
      ∧ ∃ t records, exec (.ccFeed [0x01, 0x00, 0x02, 0x03, 0x04]) State.reset = .next t
          ∧ t.port.output = State.reset.port.output ++ records := ⟨reset_inv, by decide, _, _, rfl, rfl⟩

/-- At the longest length TCLEN can carry and at none. -/
theorem witness_NumbersOnTheWireAreBigEndian :
    ((some (List.replicate 65535 (0 : Byte))).getD []).length < 65536 ∧ ((none : Option (List Byte)).getD []).length < 65536 := by
  rw [Option.getD_some, List.length_replicate]
  decide

theorem witness_RecordLengthIsExact :
    State.reset.Inv ∧ Instr.WellFormed (.slipEnc [0xC0])
      ∧ ∃ t records, exec (.slipEnc [0xC0]) State.reset = .next t ∧ t.port.output = State.reset.port.output ++ records :=
  ⟨reset_inv, by decide, _, _, rfl, rfl⟩

/-- V9 a and b, V41: a discard of bytes, no discard at the threshold, and a discard of nothing. -/
theorem witness_DesyncFlagMarksLostBytes :
    (at_ 1051 ccHeld).Inv ∧ (∃ t r, exec (.ccFeed []) (at_ 1051 ccHeld) = .next t
          ∧ t.port.responses = (at_ 1051 ccHeld).port.responses ++ [r] ∧ r.resp0.getLsbD 16 = true)
      ∧ (∃ t r, exec (.ccFeed []) (at_ 1050 ccHeld) = .next t
          ∧ t.port.responses = (at_ 1050 ccHeld).port.responses ++ [r] ∧ r.resp0.getLsbD 16 = false) :=
  ⟨ccHeld_inv, ⟨_, _, rfl, rfl, by decide⟩, ⟨_, _, rfl, rfl, by decide⟩⟩

theorem witness_LocksFollowDataCommands :
    (∃ t, exec (.spFeed []) spFaulted = .next t) ∧ ∃ t, exec (.ccFeed []) State.reset = .next t := ⟨⟨_, rfl⟩, ⟨_, rfl⟩⟩

theorem witness_LockedConfigurationIsImmutable :
    (.wrreg 0x10 100 : Instr) ≠ .reset ∧ (∃ t, exec (.wrreg 0x10 100) ccHeld = .next t) ∧ ccHeld.block.cc.lock = true
      ∧ spBody.block.sp.lock = true ∧ (withSlip fun u => { u with lock := true }).block.slip.lock = true :=
  ⟨by decide, ⟨_, rfl⟩, rfl, rfl, rfl⟩

/-- For each unit: two states that share it and the port, and differ in the others. -/
theorem witness_UnitsShareNoState :
    (ccHeld.port = { ccHeld with block := { spBody.block with cc := ccHeld.block.cc } }.port
        ∧ (∃ t, exec (.ccFeed [0x00]) ccHeld = .next t) ∧ ccHeld.block ≠ { spBody.block with cc := ccHeld.block.cc })
      ∧ (slipStart.port = { slipStart with block := { spBody.block with slip := slipStart.block.slip } }.port
        ∧ (∃ t, exec (.slipEnc [0x7E]) slipStart = .next t)
        ∧ slipStart.block ≠ { spBody.block with slip := slipStart.block.slip })
      ∧ (spBody.port = { spBody with block := { ccHeld.block with sp := spBody.block.sp } }.port
        ∧ (∃ t, exec .spFlush spBody = .next t) ∧ spBody.block ≠ { ccHeld.block with sp := spBody.block.sp }) :=
  ⟨⟨rfl, ⟨_, rfl⟩, by decide⟩, ⟨rfl, ⟨_, rfl⟩, by decide⟩, ⟨rfl, ⟨_, rfl⟩, by decide⟩⟩

/-- In a fault, with bytes in CC_ACC, and with bytes in SP_BACC. -/
theorem witness_RdregReadsEveryRegister : spFaulted.Inv ∧ ccHeld.Inv ∧ spBody.Inv := ⟨spFaulted_inv, ccHeld_inv, spBody_inv⟩

/-- V28, V29: the addresses next to the map, and the last one. -/
theorem witness_UnimplementedAddressIsBadreg :
    ∀ reg ∈ ([0x03, 0x0F, 0x14, 0x1F, 0x27, 0x2F, 0x37, 0xFF] : List Byte),
      reg ∉ ([0x00, 0x01, 0x02, 0x10, 0x11, 0x12, 0x13, 0x20, 0x21, 0x22, 0x23, 0x24, 0x25, 0x26, 0x30, 0x31, 0x32,
          0x33, 0x34, 0x35, 0x36] : List Byte) := by decide

/-- The largest values accepted (V32). -/
theorem witness_WrregStoresConfiguration :
    State.reset.block.cc.lock = false ∧ State.reset.block.slip.lock = false ∧ State.reset.block.sp.lock = false
      ∧ (7 : Half).toNat < 8 ∧ (0xFF : Half).toNat < 256 := by decide

/-- V30, V33, V34, V31. -/
theorem witness_WrregRefusalsInOrder :
    (0x11 : Byte) ∈ ([0x00, 0x01, 0x02, 0x11, 0x12, 0x13, 0x32, 0x33, 0x34, 0x35, 0x36] : List Byte)
      ∧ ccHeld.block.cc.lock = true ∧ (withSlip fun u => { u with lock := true }).block.slip.lock = true
      ∧ spBody.block.sp.lock = true ∧ State.reset.block.slip.lock = false ∧ 8 ≤ (8 : Half).toNat ∧ 256 ≤ (0x100 : Half).toNat := by
  decide

/-- V9 at both sides of the threshold: the gap equal to CC_MAXDELAY, and one more. -/
theorem witness_CcFeedEqualsChunkLevelExtraction :
    (at_ 1050 ccHeld).Inv ∧ ccHeld.block.cc.discards 1050 = false ∧ (at_ 1051 ccHeld).Inv ∧ ccHeld.block.cc.discards 1051 = true :=
  ⟨ccHeld_inv, by decide, ccHeld_inv, by decide⟩

theorem witness_CcFeedConservesBytes : (at_ 1051 ccHeld).Inv ∧ State.reset.Inv := ⟨ccHeld_inv, reset_inv⟩

/-- V1 and V2; V10; and every gap at the threshold, as in V9 b. -/
theorem witness_CcChunkBoundaryIndependence :
    (State.reset.Inv
        ∧ (([(0, [0x01, 0x00]), (50, [0x02, 0x03, 0x04])] : List (Word × List Byte)).map Prod.snd).flatten
            = (([(0, [0x01, 0x00, 0x02, 0x03, 0x04])] : List (Word × List Byte)).map Prod.snd).flatten
        ∧ (∃ t, ccFeedAll [(0, [0x01, 0x00]), (50, [0x02, 0x03, 0x04])] State.reset = some t)
        ∧ ∃ t, ccFeedAll [(0, [0x01, 0x00, 0x02, 0x03, 0x04])] State.reset = some t)
      ∧ ((withCc fun u => { u with maxDelay := 0 }).Inv ∧ (withCc fun u => { u with maxDelay := 0 }).block.cc.maxDelay = 0)
      ∧ (ccHeld.Inv ∧ (ccHeld.block.cc.lastValid = true → (1000 : Word) = ccHeld.block.cc.lastTime)
        ∧ gapsWithin ccHeld.block.cc.maxDelay 1000 [1050, 1100]) :=
  ⟨⟨reset_inv, rfl, ⟨_, rfl⟩, ⟨_, rfl⟩⟩, ⟨⟨by decide, by decide⟩, rfl⟩,
    ⟨ccHeld_inv, fun _ => rfl, by decide, by decide, trivial⟩⟩

/-- V52, where every byte is escaped; and an empty chunk without the quirk (V3 b). -/
theorem witness_SlipEncOutputLength :
    ([0xC0, 0xDB] : List Byte) ≠ [] ∧ slipQuirk.block.slip.quirk = true ∧ slipQuirk.block.slip.startEn = true
      ∧ (([0xC0, 0xDB] : List Byte).countP fun b => b == 0xC0 || b == 0xDB) = 2 ∧ State.reset.block.slip.quirk = false := by
  decide

/-- The reset configuration, V44's with START = END, and the quirk with an empty payload; V45's is not SOUND. -/
theorem witness_SlipRoundTrip :
    State.reset.block.slip.Sound ∧ slipQuirk.block.slip.Sound ∧ slipQuirk.block.slip.quirk = true
      ∧ (withSlip fun u => { u with ctrl := 3, startByte := 0xC0, escStart := 0x01 }).block.slip.Sound
      ∧ (withSlip fun u => { u with escEsc := 0xDC }).block.slip = { Block.reset.slip with escEsc := 0xDC }
      ∧ ¬ (withSlip fun u => { u with escEsc := 0xDC }).block.slip.Sound := by decide

/-- V45's configuration, not SOUND. -/
theorem witness_SlipDecAcceptsOnlyFramesOfTheEncoder :
    ∃ t, exec (.slipDec [0xDB, 0xDC, 0xC0]) (withSlip fun u => { u with escEsc := 0xDC }) = .next t
      ∧ t.port.output = (withSlip fun u => { u with escEsc := 0xDC }).port.output ++ [bytesRecord 0x03 [0xC0]]
      ∧ ([0xC0] : List Byte) ≠ [] := ⟨_, rfl, rfl, by decide⟩

/-- V46; V47; V51; no START in its place; too short for END, START and END. -/
theorem witness_SlipDecRejectsWrongShapes :
    State.reset.block.slip.ctrl.getLsbD 2 = false
      ∧ ([0x01, 0x02] : List Byte).getLast? ≠ some State.reset.block.slip.endByte
      ∧ (slipQuirk.block.slip.ctrl.getLsbD 2 = true ∧ ([0x01, 0x02, 0xC0] : List Byte)[0]? ≠ some slipQuirk.block.slip.endByte)
      ∧ (slipQuirk.block.slip.ctrl.getLsbD 0 = true
          ∧ ([0xC0, 0x41, 0xC0] : List Byte)[(slipQuirk.block.slip.ctrl.getLsbD 2).toNat]? ≠ some slipQuirk.block.slip.startByte)
      ∧ ([0xC0, 0x7E] : List Byte).length
          < (slipQuirk.block.slip.ctrl.getLsbD 2).toNat + (slipQuirk.block.slip.ctrl.getLsbD 0).toNat + 1 := by decide

/-- An END, a START, an unknown escape (V49) and a last ESC (V48), each in a body. -/
theorem witness_SlipDecRejectsWrongBodies :
    slipStart.block.slip.endByte ≠ slipStart.block.slip.escByte
      ∧ (slipStart.block.slip.startEscaped = true ∧ slipStart.block.slip.startByte ≠ slipStart.block.slip.escByte)
      ∧ (¬(slipStart.block.slip.startEscaped = true ∧ 0x41 = slipStart.block.slip.escStart)
          ∧ ¬(slipStart.block.slip.eClass = true ∧ 0x41 = slipStart.block.slip.escEnd)
          ∧ ¬(slipStart.block.slip.xClass = true ∧ 0x41 = slipStart.block.slip.escEsc)) := by decide

/-- Inside a body, and at a stream's start. -/
theorem witness_SpFeedEqualsChunkLevelTransitions :
    spBody.Inv ∧ spBody.block.sp.fault = false ∧ State.reset.Inv ∧ State.reset.block.sp.fault = false :=
  ⟨spBody_inv, rfl, reset_inv, rfl⟩

theorem witness_SpFeedSplitsAnywhere : spBody.Inv ∧ spFaulted.Inv := ⟨spBody_inv, spFaulted_inv⟩

/-- V56, with no payload; a body of SP_BODY_CAP bytes (V61); and a body of none (V63). -/
theorem witness_SpFeedEmitsAWholePacket :
    ((withSp fun u => { u with tcLen := 2 }).Inv ∧ (withSp fun u => { u with tcLen := 2 }).block.sp.hacc.bytes = []
        ∧ ([0xAA, 0xBB] : List Byte).length = (spDlFn State.reset.port.params ⟨0x08, 0x01, 0xC0, 0, 0, 0x01⟩).toNat
        ∧ (2 : Half).toNat + (0 : Half).toNat ≤ 2)
      ∧ (List.replicate 65536 (0 : Byte)).length = (spDlFn State.reset.port.params ⟨0, 0, 0, 0, 0xFF, 0xFF⟩).toNat
      ∧ ([] : List Byte).length
          = (spDlFn (withDl ⟨0x08, 0x01, 0xC0, 0, 0, 0⟩ 0 State.reset).port.params ⟨0x08, 0x01, 0xC0, 0, 0, 0⟩).toNat := by
  refine ⟨⟨⟨by decide, by decide⟩, rfl, by decide, by decide⟩, ?_, by decide⟩
  rw [List.length_replicate]
  decide

theorem witness_DefaultDataLengthRule : State.reset.port.params.dlTable = [] := rfl

/-- Five bytes, the most that complete no header. -/
theorem witness_SpPartialHeaderIsKept :
    (withSp fun u => { u with hacc := ⟨[1, 2], 2⟩, lock := true }).Inv
      ∧ (withSp fun u => { u with hacc := ⟨[1, 2], 2⟩, lock := true }).block.sp.fault = false
      ∧ (withSp fun u => { u with hacc := ⟨[1, 2], 2⟩, lock := true }).block.sp.state = .awaitingHeader
      ∧ (withSp fun u => { u with hacc := ⟨[1, 2], 2⟩, lock := true }).block.sp.hacc.bytes.length + ([3, 4, 5] : List Byte).length < 6 :=
  ⟨⟨by decide, by decide⟩, rfl, rfl, by decide⟩

/-- One byte short of the secondary header; one byte over the capacity, with the longest secondary header that fits it. -/
theorem witness_SpHeaderFaults :
    ((withSp fun u => { u with tcLen := 5 }).Inv
        ∧ (spDlFn State.reset.port.params ⟨0, 0, 0, 0, 0, 0x03⟩).toNat < (5 : Half).toNat + (0 : Half).toNat)
      ∧ (withDl ⟨0, 0, 0, 0, 0, 0⟩ 65537 (withSp fun u => { u with tcLen := 65535, ancLen := 2 })).Inv
      ∧ (65535 : Half).toNat + (2 : Half).toNat
          ≤ (spDlFn (withDl ⟨0, 0, 0, 0, 0, 0⟩ 65537 State.reset).port.params ⟨0, 0, 0, 0, 0, 0⟩).toNat
      ∧ 65536 < (spDlFn (withDl ⟨0, 0, 0, 0, 0, 0⟩ 65537 State.reset).port.params ⟨0, 0, 0, 0, 0, 0⟩).toNat :=
  ⟨⟨⟨by decide, by decide⟩, by decide⟩, ⟨by decide, by decide⟩, by decide, by decide⟩

theorem witness_DefaultDataLengthNeverExceedsTheCapacity :
    State.reset.port.params.dlTable = [] ∧ State.reset.block.sp.err ≠ 0x82
      ∧ ∃ t, exec (.spFeed [0, 0, 0, 0, 0xFF, 0xFF]) State.reset = .next t := ⟨rfl, by decide, _, rfl⟩

theorem witness_NoPacketWithoutAHeader :
    (sent 0 (.spFeed [0x33]) spBody).Inv ∧ ∃ t, step (sent 0 (.spFeed [0x33]) spBody) = .next t :=
  ⟨⟨by decide, by decide⟩, _, rfl⟩

theorem witness_FaultedSpRefusesItsCommands : spFaulted.block.sp.fault = true := rfl

theorem witness_FaultFreezesSp :
    spFaulted.Inv ∧ spFaulted.block.sp.fault = true ∧ (.wrreg 0x30 1 : Instr) ≠ .reset
      ∧ ∃ t, exec (.wrreg 0x30 1) spFaulted = .next t := ⟨spFaulted_inv, rfl, by decide, _, rfl⟩

theorem witness_SpFeedConservesBytes :
    spBody.Inv ∧ spBody.block.sp.fault = false
      ∧ ∃ t records, exec (.spFeed [0x33, 0x44, 0x55, 0x08]) spBody = .next t ∧ t.block.sp.fault = false
          ∧ t.port.output = spBody.port.output ++ records := ⟨spBody_inv, rfl, _, _, rfl, rfl, rfl⟩

theorem witness_SpFlushEmitsTheResidue : spBody.block.sp.fault = false := rfl

theorem witness_SpDiscardDropsTheResidue : spBody.block.sp.fault = false := rfl

end Sys2Proof.Tests
end

section
/-! The units share no runtime state (00_scope.md R2). A command confined to a unit computes that unit's next state, its code, its
flag and its output units from the port and that unit alone; the shared end `State.finish` then writes nothing else but the
command counter. -/

namespace Sys2Proof.Machine

/-! ### The block with one unit replaced -/

def Block.setCc (u : CcUnit) (b : Block) : Block := { b with cc := u }
def Block.setSlip (u : SlipUnit) (b : Block) : Block := { b with slip := u }
def Block.setSp (u : SpUnit) (b : Block) : Block := { b with sp := u }

@[simp] theorem Block.setCc_cc (u : CcUnit) (b : Block) : (b.setCc u).cc = u := rfl
@[simp] theorem Block.setCc_slip (u : CcUnit) (b : Block) : (b.setCc u).slip = b.slip := rfl
@[simp] theorem Block.setCc_sp (u : CcUnit) (b : Block) : (b.setCc u).sp = b.sp := rfl

@[simp] theorem Block.setSlip_cc (u : SlipUnit) (b : Block) : (b.setSlip u).cc = b.cc := rfl
@[simp] theorem Block.setSlip_slip (u : SlipUnit) (b : Block) : (b.setSlip u).slip = u := rfl
@[simp] theorem Block.setSlip_sp (u : SlipUnit) (b : Block) : (b.setSlip u).sp = b.sp := rfl

@[simp] theorem Block.setSp_cc (u : SpUnit) (b : Block) : (b.setSp u).cc = b.cc := rfl
@[simp] theorem Block.setSp_slip (u : SpUnit) (b : Block) : (b.setSp u).slip = b.slip := rfl
@[simp] theorem Block.setSp_sp (u : SpUnit) (b : Block) : (b.setSp u).sp = u := rfl

/-! ### Commands confined to a unit -/

/-- From `s`, the command reads only the port and the unit `get` reads, and writes only the unit `set` writes: every state that
agrees with `s` on the port and the unit ends with the same unit, code, flag and output units. -/
def ConfinedAt {U : Type} (get : Block → U) (set : U → Block → Block) (i : Instr) (s : State) : Prop :=
  ∃ (code : Code) (desync : Bool) (units : List OutputUnit) (u : U),
    ∀ s' : State, s'.port = s.port → get s'.block = get s.block →
      exec i s' = .next (s'.finish code desync units 0 (set u s'.block))

/-- The command is confined to the unit wherever it completes. -/
def ConfinedTo {U : Type} (get : Block → U) (set : U → Block → Block) (i : Instr) : Prop :=
  ∀ s t : State, exec i s = .next t → ConfinedAt get set i s

/-- What a command adds to the port is fixed by its code, flag, output units and read data, whatever block it leaves. -/
theorem State.finish_port_congr {s s' : State} (hport : s'.port = s.port) (code : Code) (desync : Bool)
    (units : List OutputUnit) (rdata : Word) (b b' : Block) :
    (s'.finish code desync units rdata b').port = (s.finish code desync units rdata b).port := by
  simp only [State.finish, State.report, hport]

/-- Two runs of a confined command from states that agree on the port and the unit: each block is its own start with the same
unit written and the command counted, and the ports end the same. -/
theorem ConfinedTo.twoRuns {U : Type} {get : Block → U} {set : U → Block → Block} {i : Instr} {s s' t : State}
    (hi : ConfinedTo get set i) (ht : exec i s = .next t) (hport : s.port = s'.port)
    (hunit : get s.block = get s'.block) :
    ∃ u t', exec i s' = .next t' ∧ t.block = (set u s.block).countCommand ∧ t'.block = (set u s'.block).countCommand
      ∧ t'.port = t.port := by
  obtain ⟨code, desync, units, u, hrun⟩ := hi s t ht
  have hs : Host.Outcome.next t = .next (s.finish code desync units 0 (set u s.block)) := ht ▸ hrun s rfl rfl
  cases hs
  exact ⟨u, _, hrun s' hport.symm hunit.symm, rfl, rfl, State.finish_port_congr hport.symm ..⟩

/-! ### CC -/

theorem ccFeed_confinedToCc (chunk : List Byte) : ConfinedTo Block.cc Block.setCc (.ccFeed chunk) := by
  intro s t ht
  obtain ⟨u, frames, hu, -⟩ := execCcFeed_cases ht
  refine ⟨.ok, s.block.cc.desync s.port.now, frames, u, fun s' hport hcc => ?_⟩
  show execCcFeed chunk s' = _
  simp only [execCcFeed, hport, hcc, hu]
  rfl

theorem ccDiscard_confinedToCc : ConfinedTo Block.cc Block.setCc .ccDiscard := by
  intro s t _
  refine ⟨.ok, false, [], { s.block.cc with acc := s.block.cc.acc.clear }, fun s' _ hcc => ?_⟩
  rw [← hcc]
  rfl

/-! ### SLIP -/

theorem slipEnc_confinedToSlip (chunk : List Byte) : ConfinedTo Block.slip Block.setSlip (.slipEnc chunk) := by
  intro s t _
  refine ⟨.ok, false, SlipUnit.encoded { s.block.slip with lock := true } chunk, { s.block.slip with lock := true },
    fun s' _ hslip => ?_⟩
  show execSlipEnc chunk s' = _
  simp only [execSlipEnc, hslip]
  rfl

theorem slipDec_confinedToSlip (chunk : List Byte) : ConfinedTo Block.slip Block.setSlip (.slipDec chunk) := by
  intro s t _
  cases hp : ({ s.block.slip with lock := true } : SlipUnit).payload chunk with
  | some out =>
    refine ⟨.ok, false, [.slipDec out], { s.block.slip with lock := true }, fun s' _ hslip => ?_⟩
    show execSlipDec chunk s' = _
    simp only [execSlipDec, hslip, hp]
    rfl
  | none =>
    refine ⟨.slipFormat, false, [], { s.block.slip with lock := true }, fun s' _ hslip => ?_⟩
    show execSlipDec chunk s' = _
    simp only [execSlipDec, hslip, hp]
    rfl

/-! ### SP -/

/-- A command refused for SP_FAULT alone depends on no other unit, and keeps the SP unit (60_exceptions.md R123, R124). -/
theorem confinedAt_of_faulted {i : Instr} {s : State}
    (hrefuse : ∀ s' : State, s'.block.sp.fault = true → exec i s' = .next (s'.refuse .faulted))
    (hf : s.block.sp.fault = true) : ConfinedAt Block.sp Block.setSp i s := by
  refine ⟨.faulted, false, [], s.block.sp, fun s' _ hsp => ?_⟩
  rw [hrefuse s' (hsp ▸ hf), ← hsp]
  rfl

theorem spFeed_confinedToSp (chunk : List Byte) : ConfinedTo Block.sp Block.setSp (.spFeed chunk) := by
  intro s t ht
  rcases execSpFeed_cases ht with ⟨hf, -⟩ | ⟨hf, u, packets, hu, -⟩ | ⟨hf, u, packets, code, hu, -⟩
  · exact confinedAt_of_faulted (fun _ hf' => if_pos hf') hf
  · refine ⟨.ok, false, packets, u, fun s' hport hsp => ?_⟩
    show execSpFeed chunk s' = _
    rw [execSpFeed_eq (hsp ▸ hf), hport, hsp, hu]
    rfl
  · refine ⟨code, false, packets, { u with fault := true, err := code.value }, fun s' hport hsp => ?_⟩
    show execSpFeed chunk s' = _
    rw [execSpFeed_eq (hsp ▸ hf), hport, hsp, hu]
    rfl

theorem spFlush_confinedToSp : ConfinedTo Block.sp Block.setSp .spFlush := by
  intro s t ht
  rcases execSpFlush_cases ht with ⟨hf, -⟩ | ⟨hf, -⟩
  · exact confinedAt_of_faulted (fun _ hf' => if_pos hf') hf
  · refine ⟨.ok, false, s.block.sp.residue s.port.params.flushEmpty, s.block.sp.endStream, fun s' hport hsp => ?_⟩
    rw [← hport, ← hsp]
    exact if_neg (by simp [hsp, hf])

theorem spDiscard_confinedToSp : ConfinedTo Block.sp Block.setSp .spDiscard := by
  intro s t ht
  rcases execSpDiscard_cases ht with ⟨hf, -⟩ | ⟨hf, -⟩
  · exact confinedAt_of_faulted (fun _ hf' => if_pos hf') hf
  · refine ⟨.ok, false, [], s.block.sp.endStream, fun s' _ hsp => ?_⟩
    rw [← hsp]
    exact if_neg (by simp [hsp, hf])

/-! ### The statement -/

/-- Settles O22: every command of a unit is confined to it, so two runs that agree on the port and the unit are comparable. -/
theorem unitsShareNoState : Obligations.UnitsShareNoState := by
  intro i s s' t hport ht
  refine ⟨fun hi hunit => ?_, fun hi hunit => ?_, fun hi hunit => ?_⟩
  · have hconf : ConfinedTo Block.cc Block.setCc i := by
      rcases hi with ⟨c, rfl⟩ | rfl
      · exact ccFeed_confinedToCc c
      · exact ccDiscard_confinedToCc
    obtain ⟨u, t', ht', hb, hb', hp⟩ := hconf.twoRuns ht hport hunit
    exact ⟨by simp [hb], by simp [hb], t', ht', by simp [hb, hb'], hp⟩
  · have hconf : ConfinedTo Block.slip Block.setSlip i := by
      rcases hi with ⟨c, rfl | rfl⟩
      · exact slipEnc_confinedToSlip c
      · exact slipDec_confinedToSlip c
    obtain ⟨u, t', ht', hb, hb', hp⟩ := hconf.twoRuns ht hport hunit
    exact ⟨by simp [hb], by simp [hb], t', ht', by simp [hb, hb'], hp⟩
  · have hconf : ConfinedTo Block.sp Block.setSp i := by
      rcases hi with ⟨c, rfl⟩ | rfl | rfl
      · exact spFeed_confinedToSp c
      · exact spFlush_confinedToSp
      · exact spDiscard_confinedToSp
    obtain ⟨u, t', ht', hb, hb', hp⟩ := hconf.twoRuns ht hport hunit
    exact ⟨by simp [hb], by simp [hb], t', ht', by simp [hb, hb'], hp⟩

end Sys2Proof.Machine
end

section
/-! What a command other than RESET leaves behind, said once: `exec_cases` lists the blocks it can end with, and the facts below
about those blocks are what the statements of 10_state.md need of it. -/

namespace Sys2Proof.Machine

/-! ### What CC_FEED's rules leave unchanged -/

/-- One byte of CC_FEED writes CC_ACC only, whatever state the unit is in. -/
theorem CcUnit.pushByte_frame {b : Byte} {u u' : CcUnit} {frames : List OutputUnit}
    (h : u.pushByte b = .ok (u', frames)) : u' = { u with acc := u'.acc } := by
  unfold CcUnit.pushByte at h
  repeat' split at h
  all_goals cases h
  all_goals rfl

/-- CC_FEED's loop writes CC_ACC only. -/
theorem CcUnit.pushBytes_frame {chunk : List Byte} {u u' : CcUnit} {frames : List OutputUnit}
    (h : CcUnit.pushBytes chunk u = .ok (u', frames)) : u' = { u with acc := u'.acc } := by
  induction chunk generalizing u frames with
  | nil => cases h; rfl
  | cons b rest ih =>
    simp only [CcUnit.pushBytes] at h
    split at h
    · cases h
    · rename_i v first hv
      split at h
      · cases h
      · rename_i w more hw
        cases h
        rw [ih hw, CcUnit.pushByte_frame hv]

theorem CcUnit.pushBytes_lock {chunk : List Byte} {u u' : CcUnit} {frames : List OutputUnit}
    (h : CcUnit.pushBytes chunk u = .ok (u', frames)) : u'.lock = u.lock := by
  rw [CcUnit.pushBytes_frame h]

theorem CcUnit.pushBytes_maxDelay {chunk : List Byte} {u u' : CcUnit} {frames : List OutputUnit}
    (h : CcUnit.pushBytes chunk u = .ok (u', frames)) : u'.maxDelay = u.maxDelay := by
  rw [CcUnit.pushBytes_frame h]

theorem CcUnit.pushBytes_lastValid {chunk : List Byte} {u u' : CcUnit} {frames : List OutputUnit}
    (h : CcUnit.pushBytes chunk u = .ok (u', frames)) : u'.lastValid = u.lastValid := by
  rw [CcUnit.pushBytes_frame h]

@[simp] theorem CcUnit.timingStep_maxDelay (now : Word) (u : CcUnit) : (u.timingStep now).maxDelay = u.maxDelay := by
  unfold CcUnit.timingStep
  split <;> rfl

@[simp] theorem CcUnit.timingStep_lock (now : Word) (u : CcUnit) : (u.timingStep now).lock = u.lock := by
  unfold CcUnit.timingStep
  split <;> rfl

/-- Where the unit's sample is held exactly while timing is enabled, or was never taken, the timing step leaves it held exactly
while timing is enabled (41_cctalk.md R71). -/
theorem CcUnit.timingStep_lastValid (now : Word) (u : CcUnit) (h : u.lastValid = true → u.maxDelay ≠ 0) :
    (u.timingStep now).lastValid = true ↔ u.maxDelay ≠ 0 := by
  unfold CcUnit.timingStep
  split
  · rename_i h0
    exact ⟨h, fun hne => absurd h0 hne⟩
  · rename_i h0
    exact ⟨fun _ => h0, fun _ => rfl⟩

/-! ### SP_FEED's loop -/

/-- The elements of SP that no byte of SP_FEED writes: configuration, lock and fault (a fault is written as the command ends). -/
abbrev SpUnit.SameControl (u v : SpUnit) : Prop :=
  v.tcLen = u.tcLen ∧ v.ancLen = u.ancLen ∧ v.lock = u.lock ∧ v.fault = u.fault ∧ v.err = u.err

/-- A run that has left those elements as they were in `u`. -/
def SpRun.KeepsControl (u : SpUnit) : SpRun → Prop
  | .running v _ => u.SameControl v
  | .faulted v _ _ => u.SameControl v
  | .refused _ => True

theorem SpRun.KeepsControl.after {u v : SpUnit} {r : SpRun} (hv : u.SameControl v) (hr : r.KeepsControl v)
    (first : List OutputUnit) : (r.after first).KeepsControl u := by
  obtain ⟨htc, hanc, hlock, hfault, herr⟩ := hv
  cases r <;> simp_all [SpRun.after, SpRun.KeepsControl, SpUnit.SameControl]

theorem SpUnit.completePacket_keepsControl (u : SpUnit) : u.completePacket.KeepsControl u := by
  unfold SpUnit.completePacket
  repeat' split
  all_goals simp [SpRun.KeepsControl, SpUnit.SameControl]

theorem SpUnit.parseHeader_keepsControl (p : Params) (u : SpUnit) : (u.parseHeader p).KeepsControl u := by
  unfold SpUnit.parseHeader
  split
  · trivial
  · simp only
    repeat' split
    · simp [SpRun.KeepsControl, SpUnit.SameControl]
    · simp [SpRun.KeepsControl, SpUnit.SameControl]
    · exact SpUnit.completePacket_keepsControl _
    · simp [SpRun.KeepsControl, SpUnit.SameControl]

theorem SpUnit.pushByte_keepsControl (p : Params) (b : Byte) (u : SpUnit) : (u.pushByte p b).KeepsControl u := by
  unfold SpUnit.pushByte
  simp only
  repeat' split
  · trivial
  · exact SpUnit.parseHeader_keepsControl p _
  · simp [SpRun.KeepsControl, SpUnit.SameControl]
  · trivial
  · exact SpUnit.completePacket_keepsControl _
  · simp [SpRun.KeepsControl, SpUnit.SameControl]

theorem SpUnit.pushBytes_keepsControl (p : Params) (chunk : List Byte) (u : SpUnit) :
    (SpUnit.pushBytes p chunk u).KeepsControl u := by
  induction chunk generalizing u with
  | nil => simp [SpUnit.pushBytes, SpRun.KeepsControl, SpUnit.SameControl]
  | cons b rest ih =>
    have hb := SpUnit.pushByte_keepsControl p b u
    simp only [SpUnit.pushBytes]
    cases hv : u.pushByte p b with
    | running v packets =>
      rw [hv] at hb
      exact (ih v).after hb packets
    | faulted v packets code =>
      rw [hv] at hb
      exact hb
    | refused r => trivial

theorem SpUnit.sameControl_of_running {p : Params} {chunk : List Byte} {u v : SpUnit} {packets : List OutputUnit}
    (h : SpUnit.pushBytes p chunk u = .running v packets) : u.SameControl v := by
  have hkeep := SpUnit.pushBytes_keepsControl p chunk u
  rwa [h] at hkeep

theorem SpUnit.sameControl_of_faulted {p : Params} {chunk : List Byte} {u v : SpUnit} {packets : List OutputUnit}
    {code : Code} (h : SpUnit.pushBytes p chunk u = .faulted v packets code) : u.SameControl v := by
  have hkeep := SpUnit.pushBytes_keepsControl p chunk u
  rwa [h] at hkeep

/-- The unit at the byte where a header fault stops SP_FEED, with the cause (43_spacepacket.md R107). -/
def SpUnit.StoppedBy (code : Code) (u : SpUnit) : Prop :=
  u.state = .awaitingHeader ∧ u.hacc = ⟨[], 0⟩ ∧ u.bacc = ⟨[], 0⟩ ∧ u.hdrValid = true
    ∧ ((code = .spSecHdr ∧ u.dl.toNat < u.secLen)
      ∨ (code = .spCap ∧ u.secLen ≤ u.dl.toNat ∧ Config.spBodyCap < u.dl.toNat))

/-- A run that is inside a stream still, or was stopped by a header fault; it was not refused. -/
def SpRun.Settled : SpRun → Prop
  | .running v _ => v.Ready
  | .faulted v _ code => v.StoppedBy code
  | .refused _ => False

theorem SpRun.Settled.after {r : SpRun} (hr : r.Settled) (first : List OutputUnit) : (r.after first).Settled := by
  cases r <;> exact hr

theorem SpUnit.pushByte_settled (p : Params) (b : Byte) {u : SpUnit} (hu : u.Ready) : (u.pushByte p b).Settled := by
  rcases SpUnit.pushByte_cases p b u hu with ⟨v, packets, hv, hready, -⟩ | ⟨h, code, hv, hs, hb, hcause⟩
  · rw [hv]
    exact hready
  · rw [hv]
    exact ⟨hs, rfl, hb, rfl, hcause⟩

/-- From inside a stream SP_FEED's loop ends inside a stream or at a header fault. -/
theorem SpUnit.pushBytes_settled (p : Params) (chunk : List Byte) {u : SpUnit} (hu : u.Ready) :
    (SpUnit.pushBytes p chunk u).Settled := by
  induction chunk generalizing u with
  | nil => exact hu
  | cons b rest ih =>
    have hb := SpUnit.pushByte_settled p b hu
    simp only [SpUnit.pushBytes]
    cases hv : u.pushByte p b with
    | running v packets =>
      rw [hv] at hb
      exact (ih hb).after packets
    | faulted v packets code =>
      rw [hv] at hb
      exact hb
    | refused r =>
      rw [hv] at hb
      exact hb

theorem SpUnit.ready_of_running {p : Params} {chunk : List Byte} {u v : SpUnit} {packets : List OutputUnit}
    (hu : u.Ready) (h : SpUnit.pushBytes p chunk u = .running v packets) : v.Ready := by
  have hsettled := SpUnit.pushBytes_settled p chunk hu
  rwa [h] at hsettled

theorem SpUnit.stoppedBy_of_faulted {p : Params} {chunk : List Byte} {u v : SpUnit} {packets : List OutputUnit}
    {code : Code} (hu : u.Ready) (h : SpUnit.pushBytes p chunk u = .faulted v packets code) : v.StoppedBy code := by
  have hsettled := SpUnit.pushBytes_settled p chunk hu
  rwa [h] at hsettled

/-! ### The bytes of SP's stream -/

/-- The stream bytes an SpPacket carries: its record's BODY after PRES and the two lengths (30_encoding.md R55). -/
def streamOf (units : List OutputUnit) : List Byte := (units.map OutputUnit.record).flatMap fun r => r.body.drop 5

theorem streamOf_append (first more : List OutputUnit) : streamOf (first ++ more) = streamOf first ++ streamOf more := by
  simp [streamOf]

theorem fieldIfPresent_take_getD (len : Half) (bytes : List Byte) :
    (fieldIfPresent len (bytes.take len.toNat)).getD [] = bytes.take len.toNat := by
  unfold fieldIfPresent
  split
  · rename_i h0
    simp [h0]
  · rfl

/-- A packet carries the header and then the body it was cut from, whatever the configured lengths (43_spacepacket.md R109). -/
theorem streamOf_packet (u : SpUnit) (body : List Byte) : streamOf [u.packet body] = headerBytes u.hdr ++ body := by
  have hcut : body.take u.tcLen.toNat ++ ((body.drop u.tcLen.toNat).take u.ancLen.toNat ++ body.drop u.secLen) = body := by
    rw [SpUnit.secLen, ← List.drop_drop, List.take_append_drop, List.take_append_drop]
  simp [streamOf, OutputUnit.record, SpUnit.packet, OutputUnit.body, be16, fieldIfPresent_take_getD, hcut]

theorem headerBytes_headerOfBytes {l : List Byte} (h : l.length = 6) : headerBytes (headerOfBytes l) = l := by
  match l, h with
  | [b0, b1, b2, b3, b4, b5], _ => rfl

theorem SpUnit.held_of_header {u : SpUnit} (h : u.state = .awaitingHeader) : u.held = u.hacc.bytes := by
  simp [SpUnit.held, h]

theorem SpUnit.held_of_body {u : SpUnit} (h : u.state = .awaitingBody) : u.held = headerBytes u.hdr ++ u.bacc.bytes := by
  simp [SpUnit.held, h]

/-- A run that goes on has emitted and holds exactly the bytes `stream`. -/
def SpRun.Conserves (stream : List Byte) : SpRun → Prop
  | .running v packets => streamOf packets ++ v.held = stream
  | .faulted _ _ _ => True
  | .refused _ => True

theorem SpRun.Conserves.after {stream : List Byte} {r : SpRun} (hr : r.Conserves stream) (first : List OutputUnit) :
    (r.after first).Conserves (streamOf first ++ stream) := by
  cases r with
  | running v packets =>
    have hr' : streamOf packets ++ v.held = stream := hr
    simp [SpRun.after, SpRun.Conserves, streamOf_append, hr']
  | faulted v packets code => trivial
  | refused r => trivial

theorem SpUnit.parseHeader_conserves (p : Params) (u : SpUnit) (hc : u.hacc.cursor = 6) (hl : u.hacc.bytes.length = 6)
    (hb : u.bacc = ⟨[], 0⟩) : (u.parseHeader p).Conserves u.hacc.bytes := by
  rw [SpUnit.parseHeader_eq p u hc hl hb]
  simp only
  repeat' split
  · trivial
  · trivial
  · simp [SpRun.Conserves, streamOf_packet, SpUnit.held, SpUnit.packetDone, SpUnit.parsed, headerBytes_headerOfBytes hl]
  · simp [SpRun.Conserves, streamOf, SpUnit.held, SpUnit.parsed, headerBytes_headerOfBytes hl, hb]

theorem SpUnit.pushByte_conserves (p : Params) (b : Byte) {u : SpUnit} (hu : u.Ready) :
    (u.pushByte p b).Conserves (u.held ++ [b]) := by
  obtain ⟨hh, hb, ⟨hs, h5, hbe, -⟩ | hbody⟩ := hu
  · have hbacc : u.bacc = ⟨[], 0⟩ := by
      have hcur : u.bacc.cursor = 0 := by rw [hb.1, hbe]; rfl
      rw [← hbe, ← hcur]
    rw [SpUnit.pushByte_header p b u hh.1 hs h5, SpUnit.held_of_header hs]
    split
    · rename_i h6
      exact SpUnit.parseHeader_conserves p { u with hacc := ⟨u.hacc.bytes ++ [b], 6⟩ } rfl (by simpa using h6) hbacc
    · exact SpUnit.held_of_header hs
  · rw [SpUnit.pushByte_body p b u hb hbody, SpUnit.held_of_body hbody.1]
    simp only
    split
    · have hhe := hbody.2.1
      simp [SpRun.Conserves, streamOf_packet, SpUnit.held, SpUnit.packetDone, hhe]
    · simp [SpRun.Conserves, streamOf, SpUnit.held, hbody.1]

/-- SP_FEED's loop from inside a stream, while no fault stops it, emits or holds every byte and no other (10_state.md R31). -/
theorem SpUnit.pushBytes_conserves (p : Params) (chunk : List Byte) {u : SpUnit} (hu : u.Ready) :
    (SpUnit.pushBytes p chunk u).Conserves (u.held ++ chunk) := by
  induction chunk generalizing u with
  | nil => simp [SpUnit.pushBytes, SpRun.Conserves, streamOf]
  | cons b rest ih =>
    have hready := SpUnit.pushByte_settled p b hu
    have hbyte := SpUnit.pushByte_conserves p b hu
    simp only [SpUnit.pushBytes]
    cases hv : u.pushByte p b with
    | running v packets =>
      rw [hv] at hready hbyte
      have hbyte' : streamOf packets ++ v.held = u.held ++ [b] := hbyte
      have hrest := (ih hready).after packets
      rwa [← List.append_assoc, hbyte', List.append_assoc] at hrest
    | faulted v packets code => trivial
    | refused r => trivial

/-! ### The blocks a command can end with -/

/-- `Leaves s i desync b`: from `s` the command `i`, other than RESET, can leave the block at `b`, not yet counted, and respond
with the flag `desync`. A register write that is refused, an SP command refused for SP_FAULT and a command that only reads all
keep the block. -/
inductive Leaves (s : State) : Instr → Bool → Block → Prop
  | kept {i : Instr} (hcc : ∀ c, i ≠ .ccFeed c) (hslip : ∀ c, i ≠ .slipEnc c ∧ i ≠ .slipDec c)
      (hsp : ∀ c, i = .spFeed c → s.block.sp.fault = true) : Leaves s i false s.block
  | wrote (reg : Byte) (data : Half) (r : Reg) (hlock : r.locked s.block = false) :
      Leaves s (.wrreg reg data) false (r.write data s.block)
  | ccFed (chunk : List Byte) (u : CcUnit) (frames : List OutputUnit)
      (hu : CcUnit.pushBytes chunk (({ s.block.cc with lock := true } : CcUnit).timingStep s.port.now) = .ok (u, frames)) :
      Leaves s (.ccFeed chunk) (s.block.cc.desync s.port.now) { s.block with cc := u }
  | ccDiscarded : Leaves s .ccDiscard false { s.block with cc := { s.block.cc with acc := ⟨[], 0⟩ } }
  | slipUsed {i : Instr} (hi : ∃ c, i = .slipEnc c ∨ i = .slipDec c) :
      Leaves s i false { s.block with slip := { s.block.slip with lock := true } }
  | spFed (chunk : List Byte) (u : SpUnit) (packets : List OutputUnit) (hf : s.block.sp.fault = false)
      (hu : SpUnit.pushBytes s.port.params chunk { s.block.sp with lock := true } = .running u packets) :
      Leaves s (.spFeed chunk) false { s.block with sp := u }
  | spStopped (chunk : List Byte) (u : SpUnit) (packets : List OutputUnit) (code : Code) (hf : s.block.sp.fault = false)
      (hu : SpUnit.pushBytes s.port.params chunk { s.block.sp with lock := true } = .faulted u packets code) :
      Leaves s (.spFeed chunk) false { s.block with sp := { u with fault := true, err := code.value } }
  | spEnded {i : Instr} (hi : i = .spFlush ∨ i = .spDiscard) (hf : s.block.sp.fault = false) :
      Leaves s i false { s.block with sp := s.block.sp.endStream }

/-- The end every command but RESET shares (30_encoding.md R56), from a block the command can leave. -/
def EndsAt (i : Instr) (s t : State) : Prop :=
  ∃ (code : Code) (desync : Bool) (units : List OutputUnit) (rdata : Word) (b : Block),
    Leaves s i desync b ∧ t = s.finish code desync units rdata b

theorem exec_reset {s t : State} (h : exec .reset s = .next t) : t = s.resetBlock.report .ok false [] 0 := by
  cases h
  rfl

/-- Everything a command other than RESET can do. -/
theorem exec_endsAt {i : Instr} {s t : State} (hi : i ≠ .reset) (h : exec i s = .next t) : EndsAt i s t := by
  cases i with
  | nop => cases h; exact ⟨_, _, _, _, _, .kept nofun (by simp) nofun, rfl⟩
  | reset => exact absurd rfl hi
  | rdreg reg =>
    rcases execRdreg_cases h with ⟨-, rfl⟩ | ⟨r, -, rfl⟩
    · exact ⟨_, _, _, _, _, .kept nofun (by simp) nofun, rfl⟩
    · exact ⟨_, _, _, _, _, .kept nofun (by simp) nofun, rfl⟩
  | wrreg reg data =>
    rcases execWrreg_cases h with ⟨code, rfl, -⟩ | ⟨r, -, -, hlock, -, rfl⟩
    · exact ⟨_, _, _, _, _, .kept nofun (by simp) nofun, rfl⟩
    · exact ⟨_, _, _, _, _, .wrote reg data r hlock, rfl⟩
  | ccFeed chunk =>
    obtain ⟨u, frames, hu, rfl⟩ := execCcFeed_cases h
    exact ⟨_, _, _, _, _, .ccFed chunk u frames hu, rfl⟩
  | ccDiscard => cases h; exact ⟨_, _, _, _, _, .ccDiscarded, rfl⟩
  | slipEnc chunk => cases h; exact ⟨_, _, _, _, _, .slipUsed ⟨chunk, .inl rfl⟩, rfl⟩
  | slipDec chunk =>
    rcases execSlipDec_cases h with ⟨out, -, rfl⟩ | ⟨-, rfl⟩
    · exact ⟨_, _, _, _, _, .slipUsed ⟨chunk, .inr rfl⟩, rfl⟩
    · exact ⟨_, _, _, _, _, .slipUsed ⟨chunk, .inr rfl⟩, rfl⟩
  | spFeed chunk =>
    rcases execSpFeed_cases h with ⟨hf, rfl⟩ | ⟨hf, u, packets, hu, rfl⟩ | ⟨hf, u, packets, code, hu, rfl⟩
    · exact ⟨_, _, _, _, _, .kept nofun (by simp) (fun _ _ => hf), rfl⟩
    · exact ⟨_, _, _, _, _, .spFed chunk u packets hf hu, rfl⟩
    · exact ⟨_, _, _, _, _, .spStopped chunk u packets code hf hu, rfl⟩
  | spFlush =>
    rcases execSpFlush_cases h with ⟨-, rfl⟩ | ⟨hf, rfl⟩
    · exact ⟨_, _, _, _, _, .kept nofun (by simp) nofun, rfl⟩
    · exact ⟨_, _, _, _, _, .spEnded (.inl rfl) hf, rfl⟩
  | spDiscard =>
    rcases execSpDiscard_cases h with ⟨-, rfl⟩ | ⟨hf, rfl⟩
    · exact ⟨_, _, _, _, _, .kept nofun (by simp) nofun, rfl⟩
    · exact ⟨_, _, _, _, _, .spEnded (.inr rfl) hf, rfl⟩

/-- Everything a command can do: RESET resets the block and counts nothing; any other command ends at a block it can leave. -/
theorem exec_cases {i : Instr} {s t : State} (h : exec i s = .next t) :
    (i = .reset ∧ t = s.resetBlock.report .ok false [] 0) ∨ (i ≠ .reset ∧ EndsAt i s t) := by
  by_cases hi : i = .reset
  · subst hi
    exact .inl ⟨rfl, exec_reset h⟩
  · exact .inr ⟨hi, exec_endsAt hi h⟩

/-- Everything a step can do: wait, take the reset input, or take a command, which is refused as illegal or run. -/
theorem step_cases {s t : State} (h : step s = .next t) :
    t = s ∨ (∃ rest, t = s.resetByInput rest) ∨ (∃ now rest, t = (s.accept now rest).refuse .illegal)
      ∨ ∃ i now rest, exec i (s.accept now rest) = .next t := by
  unfold step at h
  split at h
  · cases h; exact .inl rfl
  · rename_i rest _
    cases h; exact .inr (.inl ⟨rest, rfl⟩)
  · rename_i bytes now rest _
    split at h
    · rename_i i _ _
      exact .inr (.inr (.inr ⟨i, now, rest, h⟩))
    · cases h; exact .inr (.inr (.inl ⟨now, rest, rfl⟩))

/-! ### Facts about the blocks a command can end with -/

theorem Reg.write_ccLock (r : Reg) (data : Half) (b : Block) : (r.write data b).cc.lock = b.cc.lock := by
  rw [Reg.write_cc]

theorem Reg.write_spLock (r : Reg) (data : Half) (b : Block) : (r.write data b).sp.lock = b.sp.lock := by
  rw [Reg.write_sp]

section
variable {s : State} {i : Instr} {desync : Bool} {b : Block}

theorem Leaves.cmdCount (h : Leaves s i desync b) : b.cmdCount = s.block.cmdCount := by
  cases h with
  | wrote reg data r hlock => exact Reg.write_cmdCount r data s.block
  | _ => rfl

/-- DESYNC is CC_FEED's alone (10_state.md R10). -/
theorem Leaves.desync_iff (h : Leaves s i desync b) :
    desync = true ↔ (∃ c, i = .ccFeed c) ∧ s.block.cc.desync s.port.now = true := by
  cases h with
  | kept hcc hslip hsp => simp [hcc]
  | slipUsed hi => obtain ⟨c, rfl | rfl⟩ := hi <;> simp
  | spEnded hi hf => obtain rfl | rfl := hi <;> simp
  | _ => simp

theorem Leaves.ccLock_iff (h : Leaves s i desync b) :
    b.cc.lock = true ↔ s.block.cc.lock = true ∨ ∃ c, i = .ccFeed c := by
  cases h with
  | kept hcc hslip hsp => simp [hcc]
  | wrote reg data r hlock => simp [Reg.write_ccLock]
  | ccFed chunk u frames hu => simp [CcUnit.pushBytes_lock hu]
  | slipUsed hi => obtain ⟨c, rfl | rfl⟩ := hi <;> simp
  | spEnded hi hf => obtain rfl | rfl := hi <;> simp
  | _ => simp

theorem Leaves.slipLock_iff (h : Leaves s i desync b) :
    b.slip.lock = true ↔ s.block.slip.lock = true ∨ ∃ c, i = .slipEnc c ∨ i = .slipDec c := by
  cases h with
  | kept hcc hslip hsp => simp [hslip]
  | wrote reg data r hlock => simp [Reg.write_slipLock]
  | slipUsed hi => simp [hi]
  | spEnded hi hf => obtain rfl | rfl := hi <;> simp
  | _ => simp

theorem Leaves.spLock_iff (h : Leaves s i desync b) :
    b.sp.lock = true ↔ s.block.sp.lock = true ∨ ∃ c, i = .spFeed c ∧ s.block.sp.fault = false := by
  cases h with
  | kept hcc hslip hsp =>
    refine ⟨.inl, ?_⟩
    rintro (hl | ⟨c, hi, hf⟩)
    · exact hl
    · simp [hsp c hi] at hf
  | wrote reg data r hlock => simp [Reg.write_spLock]
  | spFed chunk u packets hf hu =>
    obtain ⟨-, -, hlock, -⟩ := SpUnit.sameControl_of_running hu
    simp [hlock, hf]
  | spStopped chunk u packets code hf hu =>
    obtain ⟨-, -, hlock, -⟩ := SpUnit.sameControl_of_faulted hu
    simp [hlock, hf]
  | slipUsed hi => obtain ⟨c, rfl | rfl⟩ := hi <;> simp
  | spEnded hi hf => obtain rfl | rfl := hi <;> simp [SpUnit.endStream]
  | _ => simp

end

/-! ### The invariant, unit by unit -/


/-- CC_FEED keeps the CC unit's invariant: the loop leaves no whole frame, and the timing state follows the lock it sets
(10_state.md R29, 41_cctalk.md R71, R76). -/
theorem CcUnit.inv_of_fed {now : Word} {chunk : List Byte} {u v : CcUnit} {frames : List OutputUnit} (hu : u.Inv)
    (h : CcUnit.pushBytes chunk (({ u with lock := true } : CcUnit).timingStep now) = .ok (v, frames)) : v.Inv := by
  obtain ⟨hw, hs, hunlocked, hlocked⟩ := hu
  obtain ⟨hw', hs'⟩ := CcUnit.timingStep_settled now { u with lock := true } hw hs
  obtain ⟨v', frames', h', hwv, hsv, -⟩ := CcUnit.pushBytes_settled chunk _ hw' hs'
  obtain ⟨rfl, -⟩ : v' = v ∧ frames' = frames := by simpa [h] using h'.symm
  have hlock : v'.lock = true := by simp [CcUnit.pushBytes_lock h]
  have hvalid : u.lastValid = true → u.maxDelay ≠ 0 := by
    cases hl : u.lock
    · simp [(hunlocked hl).2.1]
    · exact (hlocked hl).1
  refine ⟨hwv, hsv, fun hl => by simp [hlock] at hl, fun _ => ?_⟩
  rw [CcUnit.pushBytes_lastValid h, CcUnit.pushBytes_maxDelay h, CcUnit.timingStep_maxDelay]
  exact CcUnit.timingStep_lastValid now { u with lock := true } hvalid

theorem CcUnit.inv_of_discarded {u : CcUnit} (hu : u.Inv) : ({ u with acc := ⟨[], 0⟩ } : CcUnit).Inv := by
  obtain ⟨-, -, hunlocked, hlocked⟩ := hu
  exact ⟨Acc.wf_empty _, .inl (by simp), fun hl => ⟨rfl, (hunlocked hl).2⟩, hlocked⟩

/-- A write that passes the lock check keeps the CC unit's invariant: it changes CC_MAXDELAY only while CC_LOCK = 0, when the
timing state does not depend on it. -/
theorem Reg.write_ccInv {r : Reg} {data : Half} {b : Block} (hlock : r.locked b = false) (hb : b.cc.Inv) :
    (r.write data b).cc.Inv := by
  obtain ⟨hlocked, -, -⟩ := Reg.write_unlocked r data b hlock
  cases hl : b.cc.lock
  · obtain ⟨hw, hs, hunlocked, -⟩ := hb
    rw [Reg.write_cc]
    exact ⟨hw, hs, hunlocked, fun hl' => absurd hl' (by simp [hl])⟩
  · rw [hlocked hl]
    exact hb

theorem SpUnit.ready_of_inv {u : SpUnit} (hu : u.Inv) (hf : u.fault = false) :
    ({ u with lock := true } : SpUnit).Ready := by
  obtain ⟨hh, hb, hok, -, -⟩ := hu
  exact ⟨hh, hb, (hok hf).2⟩

/-- SP_FEED without a fault keeps the SP unit's invariant (10_state.md R30). -/
theorem SpUnit.inv_of_fed {p : Params} {chunk : List Byte} {u v : SpUnit} {packets : List OutputUnit} (hu : u.Inv)
    (hf : u.fault = false) (h : SpUnit.pushBytes p chunk { u with lock := true } = .running v packets) : v.Inv := by
  obtain ⟨hh, hb, hcase⟩ := SpUnit.ready_of_running (SpUnit.ready_of_inv hu hf) h
  obtain ⟨-, -, hlock, hfault, herr⟩ := SpUnit.sameControl_of_running h
  obtain ⟨-, -, hok, -, -⟩ := hu
  refine ⟨hh, hb, fun _ => ⟨herr.trans (hok hf).1, hcase⟩, fun hf' => ?_, fun hl => ?_⟩
  · simp [hfault, hf] at hf'
  · simp [hlock] at hl

/-- SP_FEED that raises a fault leaves the state 60_exceptions.md R126 lists. -/
theorem SpUnit.inv_of_stopped {p : Params} {chunk : List Byte} {u v : SpUnit} {packets : List OutputUnit} {code : Code}
    (hu : u.Inv) (hf : u.fault = false)
    (h : SpUnit.pushBytes p chunk { u with lock := true } = .faulted v packets code) :
    ({ v with fault := true, err := code.value } : SpUnit).Inv := by
  obtain ⟨hs, hh, hb, hvalid, hcause⟩ := SpUnit.stoppedBy_of_faulted (SpUnit.ready_of_inv hu hf) h
  obtain ⟨-, -, hlock, -, -⟩ := SpUnit.sameControl_of_faulted h
  have hcode : (code.value = 0x80 ∧ v.dl.toNat < v.secLen)
      ∨ (code.value = 0x82 ∧ v.secLen ≤ v.dl.toNat ∧ Config.spBodyCap < v.dl.toNat) := by
    rcases hcause with ⟨rfl, hlt⟩ | ⟨rfl, hle, hcap⟩
    · exact .inl ⟨rfl, hlt⟩
    · exact .inr ⟨rfl, hle, hcap⟩
  refine ⟨?_, ?_, nofun, fun _ => ⟨hlock, hs, ?_, ?_, hvalid, hcode⟩, fun hl => ?_⟩
  · exact hh ▸ Acc.wf_empty _
  · exact hb ▸ Acc.wf_empty _
  · exact hh ▸ rfl
  · exact hb ▸ rfl
  · simp [hlock] at hl

/-- SP_FLUSH and SP_DISCARD leave SP at the start of a stream (43_spacepacket.md R114, R116). -/
theorem SpUnit.inv_of_ended {u : SpUnit} (hu : u.Inv) (hf : u.fault = false) : u.endStream.Inv := by
  obtain ⟨-, -, hok, -, hunlocked⟩ := hu
  have hstart : u.endStream.InHeader := ⟨rfl, by simp [SpUnit.endStream], rfl, rfl, rfl⟩
  refine ⟨Acc.wf_empty _, Acc.wf_empty _, fun _ => ⟨(hok hf).1, .inl hstart⟩, fun hf' => ?_,
    fun hl => ⟨hstart, rfl, (hunlocked hl).2.2⟩⟩
  exact absurd hf' (by simp [SpUnit.endStream, hf])

/-- A write that passes the lock check keeps the SP unit's invariant: it changes the two lengths only while SP_LOCK = 0, when SP
awaits its first header. -/
theorem Reg.write_spInv {r : Reg} {data : Half} {b : Block} (hlock : r.locked b = false) (hb : b.sp.Inv) :
    (r.write data b).sp.Inv := by
  obtain ⟨-, -, hlocked⟩ := Reg.write_unlocked r data b hlock
  cases hl : b.sp.lock
  · obtain ⟨hh, hba, hok, hfault, hunlocked⟩ := hb
    rw [Reg.write_sp]
    refine ⟨hh, hba, fun hf => ⟨(hok hf).1, .inl (hunlocked hl).1⟩, fun hf => ?_, hunlocked⟩
    exact absurd (hfault hf).1 (by simp [hl])
  · rw [hlocked hl]
    exact hb

theorem Leaves.cc_inv {s : State} {i : Instr} {desync : Bool} {b : Block} (h : Leaves s i desync b)
    (hs : s.block.cc.Inv) : b.cc.Inv := by
  cases h with
  | wrote reg data r hlock => exact Reg.write_ccInv hlock hs
  | ccFed chunk u frames hu => exact CcUnit.inv_of_fed hs hu
  | ccDiscarded => exact CcUnit.inv_of_discarded hs
  | _ => exact hs

theorem Leaves.sp_inv {s : State} {i : Instr} {desync : Bool} {b : Block} (h : Leaves s i desync b)
    (hs : s.block.sp.Inv) : b.sp.Inv := by
  cases h with
  | wrote reg data r hlock => exact Reg.write_spInv hlock hs
  | spFed chunk u packets hf hu => exact SpUnit.inv_of_fed hs hf hu
  | spStopped chunk u packets code hf hu => exact SpUnit.inv_of_stopped hs hf hu
  | spEnded hi hf => exact SpUnit.inv_of_ended hs hf
  | _ => exact hs

theorem Block.reset_inv : Block.reset.cc.Inv ∧ Block.reset.sp.Inv := ⟨by decide, by decide⟩

/-- Every command keeps the invariant. -/
theorem exec_inv {i : Instr} {s t : State} (hs : s.Inv) (h : exec i s = .next t) : t.Inv := by
  obtain ⟨hcc, hsp⟩ := hs
  rcases exec_cases h with ⟨-, rfl⟩ | ⟨-, code, desync, units, rdata, b, hb, rfl⟩
  · exact Block.reset_inv
  · exact ⟨hb.cc_inv hcc, hb.sp_inv hsp⟩

/-! ### The flag DESYNC -/

/-- FLAGS[0] of a response is DESYNC (30_encoding.md R53). -/
theorem respond_desync (code : Code) (desync : Bool) (nout : Nat) (rdata : Word) :
    (respond code desync nout rdata).resp0.getLsbD 16 = desync := by
  simp only [respond, BitVec.getLsbD_append, bit]
  cases desync <;> rfl

/-- A timeout check loses bytes exactly when R70's condition holds and CC_ACC is not empty. -/
theorem CcUnit.desync_iff {u : CcUnit} (hw : u.acc.Wf Config.ccBufCap) (now : Word) :
    u.desync now = true ↔ u.maxDelay ≠ 0 ∧ u.lastValid = true ∧ u.maxDelay.toNat < (now - u.lastTime).toNat
      ∧ u.acc.bytes ≠ [] := by
  obtain ⟨hlen, -⟩ := hw
  simp only [CcUnit.desync, CcUnit.discards, Acc.count, hlen, List.length_pos_iff, Bool.and_eq_true,
    decide_eq_true_eq, and_assoc]
  exact Iff.rfl

/-! ### Configuration and the fault -/

section
variable {s : State} {i : Instr} {desync : Bool} {b : Block}

theorem Leaves.maxDelay_of_locked (h : Leaves s i desync b) (hl : s.block.cc.lock = true) :
    b.cc.maxDelay = s.block.cc.maxDelay := by
  cases h with
  | wrote reg data r hlock =>
    obtain ⟨hcc, -, -⟩ := Reg.write_unlocked r data s.block hlock
    rw [hcc hl]
  | ccFed chunk u frames hu => simp [CcUnit.pushBytes_maxDelay hu]
  | _ => rfl

theorem Leaves.slip_of_locked (h : Leaves s i desync b) (hl : s.block.slip.lock = true) : b.slip = s.block.slip := by
  cases h with
  | wrote reg data r hlock =>
    obtain ⟨-, hslip, -⟩ := Reg.write_unlocked r data s.block hlock
    exact hslip hl
  | slipUsed hi => simp [← hl]
  | _ => rfl

theorem Leaves.spLengths_of_locked (h : Leaves s i desync b) (hl : s.block.sp.lock = true) :
    b.sp.tcLen = s.block.sp.tcLen ∧ b.sp.ancLen = s.block.sp.ancLen := by
  cases h with
  | wrote reg data r hlock =>
    obtain ⟨-, -, hsp⟩ := Reg.write_unlocked r data s.block hlock
    simp [hsp hl]
  | spFed chunk u packets hf hu =>
    obtain ⟨htc, hanc, -⟩ := SpUnit.sameControl_of_running hu
    exact ⟨htc, hanc⟩
  | spStopped chunk u packets code hf hu =>
    obtain ⟨htc, hanc, -⟩ := SpUnit.sameControl_of_faulted hu
    exact ⟨htc, hanc⟩
  | _ => exact ⟨rfl, rfl⟩

/-- While SP_FAULT = 1 the SP commands are refused, and SP_LOCK, which a fault leaves at 1, refuses a write. -/
theorem Leaves.sp_of_faulted (h : Leaves s i desync b) (hf : s.block.sp.fault = true) (hl : s.block.sp.lock = true) :
    b.sp = s.block.sp := by
  cases h with
  | wrote reg data r hlock =>
    obtain ⟨-, -, hsp⟩ := Reg.write_unlocked r data s.block hlock
    exact hsp hl
  | spFed chunk u packets hf' hu => simp [hf] at hf'
  | spStopped chunk u packets code hf' hu => simp [hf] at hf'
  | spEnded hi hf' => simp [hf] at hf'
  | _ => rfl

end

/-! ### Registers -/

/-- The address column of 10_state.md R26, from the register's side. -/
def Reg.addr : Reg → Byte
  | .status => 0x00
  | .spErr => 0x01
  | .cmdCount => 0x02
  | .ccMaxDelay => 0x10
  | .ccCount => 0x11
  | .ccLastTime => 0x12
  | .ccDesyncCount => 0x13
  | .slipCtrl => 0x20
  | .slipStart => 0x21
  | .slipEsc => 0x22
  | .slipEnd => 0x23
  | .slipEscStart => 0x24
  | .slipEscEnd => 0x25
  | .slipEscEsc => 0x26
  | .spTcLen => 0x30
  | .spAncLen => 0x31
  | .spHdrCount => 0x32
  | .spBodyCount => 0x33
  | .spDl => 0x34
  | .spHdrW0 => 0x35
  | .spHdrW1 => 0x36

theorem Reg.ofAddr_addr (r : Reg) : Reg.ofAddr r.addr = some r := by
  cases r <;> rfl

theorem Reg.eq_addr_of_ofAddr {a : Byte} {r : Reg} (h : Reg.ofAddr a = some r) : a = r.addr := by
  unfold Reg.ofAddr at h
  apply BitVec.eq_of_toNat_eq
  split at h <;> cases h <;> assumption

/-- A register's read answers OK with its value and changes nothing but the count (44_control.md R119). -/
theorem exec_rdreg_addr {s : State} (r : Reg) {value : Word} (hv : r.read s.block = value) :
    exec (.rdreg r.addr) s = .next (s.ended s.block 0x00000000 value []) := by
  show execRdreg r.addr s = _
  rw [execRdreg, Reg.ofAddr_addr]
  simp only [hv]
  rw [State.finish_eq_ended _ _ _ _ _ _ rfl]
  rfl

/-- The seven bits of STATUS, each at its place (10_state.md R11). -/
theorem status_bits (b6 b5 b4 b3 b2 b1 b0 : Bool) :
    (bit b6 ++ bit b5 ++ bit b4 ++ bit b3 ++ bit b2 ++ bit b1 ++ bit b0).setWidth 32
      = BitVec.ofNat 32 (b0.toNat + 2 * b1.toNat + 4 * b2.toNat + 8 * b3.toNat + 16 * b4.toNat + 32 * b5.toNat
          + 64 * b6.toNat) := by
  revert b6 b5 b4 b3 b2 b1 b0
  decide

theorem SpState.bodyBit_eq (x : SpState) : x.bodyBit = decide (x = .awaitingBody) := by
  cases x <;> rfl

theorem Block.status_eq (b : Block) :
    b.status
      = BitVec.ofNat 32 (b.cc.lock.toNat + 2 * b.slip.lock.toNat + 4 * b.sp.lock.toNat
          + 8 * (decide (b.sp.state = .awaitingBody)).toNat + 16 * b.sp.fault.toNat + 32 * b.cc.lastValid.toNat
          + 64 * b.sp.hdrValid.toNat) := by
  rw [Block.status, status_bits, SpState.bodyBit_eq]

/-- A well-formed accumulator's count reads as the number of its bytes in a register wide enough for its capacity. -/
theorem Acc.read_count {cap w : Nat} {a : Acc} (ha : a.Wf cap) (hw : cap < 2 ^ w) :
    (BitVec.ofNat w a.count).setWidth 32 = BitVec.ofNat 32 a.bytes.length := by
  obtain ⟨hlen, hcap⟩ := ha
  have hlt : a.bytes.length < 2 ^ w := by omega
  apply BitVec.eq_of_toNat_eq
  simp [Acc.count, hlen, Nat.mod_eq_of_lt hlt]

theorem toNat_append_eq {m n : Nat} (x : BitVec m) (y : BitVec n) : (x ++ y).toNat = x.toNat * 2 ^ n + y.toNat := by
  rw [BitVec.toNat_append, ← Nat.shiftLeft_add_eq_or_of_lt y.isLt, Nat.shiftLeft_eq]

theorem headerWord0_eq (h : Header) :
    headerWord0 h = BitVec.ofNat 32 (h.b0.toNat * 2 ^ 24 + h.b1.toNat * 2 ^ 16 + h.b2.toNat * 2 ^ 8 + h.b3.toNat) := by
  have hnat : (headerWord0 h).toNat = h.b0.toNat * 2 ^ 24 + h.b1.toNat * 2 ^ 16 + h.b2.toNat * 2 ^ 8 + h.b3.toNat := by
    simp only [headerWord0, wordOfBytes, toNat_append_eq]
    omega
  rw [← hnat, BitVec.ofNat_toNat, BitVec.setWidth_eq]

theorem headerWord1_eq (h : Header) :
    (headerWord1 h).setWidth 32 = BitVec.ofNat 32 (h.b4.toNat * 2 ^ 8 + h.b5.toNat) := by
  have hnat : (headerWord1 h).toNat = h.b4.toNat * 2 ^ 8 + h.b5.toNat := toNat_append_eq h.b4 h.b5
  rw [← hnat, BitVec.ofNat_toNat]

/-! ### The statements -/

/-- Settles O3: the invariant holds after each thing a step can do. -/
theorem stepKeepsInvariant : Obligations.StepKeepsInvariant := by
  intro s t hs h
  rcases step_cases h with rfl | ⟨rest, rfl⟩ | ⟨now, rest, rfl⟩ | ⟨i, now, rest, hexec⟩
  · exact hs
  · exact Block.reset_inv
  · exact hs
  · exact exec_inv (s := s.accept now rest) hs hexec

/-- Settles O15: every end of a command but RESET's counts it. -/
theorem everyCommandIsCounted : Obligations.EveryCommandIsCounted := by
  intro i s t h
  rcases exec_cases h with ⟨rfl, rfl⟩ | ⟨hi, code, desync, units, rdata, b, hb, rfl⟩
  · rfl
  · rw [if_neg hi, State.finish_cmdCount, hb.cmdCount]

/-- Settles O19: the flag in the one response a command gives is that of the block it leaves. -/
theorem desyncFlagMarksLostBytes : Obligations.DesyncFlagMarksLostBytes := by
  intro i s t r hs h hr
  obtain ⟨⟨hw, -⟩, -⟩ := hs
  rcases exec_cases h with ⟨rfl, rfl⟩ | ⟨-, code, desync, units, rdata, b, hb, rfl⟩
  · obtain rfl : respond .ok false 0 0 = r := by simpa using hr
    simp only [respond_desync]
    simp
  · obtain rfl : respond code desync units.length rdata = r := by simpa using hr
    rw [respond_desync, hb.desync_iff, CcUnit.desync_iff hw]

/-- Settles O20. -/
theorem locksFollowDataCommands : Obligations.LocksFollowDataCommands := by
  intro i s t h
  rcases exec_cases h with ⟨rfl, rfl⟩ | ⟨hi, code, desync, units, rdata, b, hb, rfl⟩
  · simp [Block.reset]
  · simp only [State.finish_cc, State.finish_slip, State.finish_sp, hb.ccLock_iff, hb.slipLock_iff, hb.spLock_iff]
    simp [hi]

/-- Settles O21. -/
theorem lockedConfigurationIsImmutable : Obligations.LockedConfigurationIsImmutable := by
  intro i s t hi h
  obtain ⟨code, desync, units, rdata, b, hb, rfl⟩ := exec_endsAt hi h
  exact ⟨hb.maxDelay_of_locked, hb.slip_of_locked, hb.spLengths_of_locked⟩

/-- Settles O25, register by register: a field narrower than 32 bits reads as its number, and the invariant keeps the three
counts inside their registers' bits. -/
theorem rdregReadsEveryRegister : Obligations.RdregReadsEveryRegister := by
  intro s hs
  obtain ⟨⟨hacc, -⟩, hhacc, hbacc, -⟩ := hs
  simp only [List.forall_mem_cons, List.not_mem_nil, false_implies, implies_true, and_true, BitVec.ofNat_toNat]
  exact
    ⟨exec_rdreg_addr .status (Block.status_eq s.block),
      exec_rdreg_addr .spErr rfl,
      exec_rdreg_addr .cmdCount rfl,
      exec_rdreg_addr .ccMaxDelay rfl,
      exec_rdreg_addr .ccCount (Acc.read_count hacc (by decide)),
      exec_rdreg_addr .ccLastTime rfl,
      exec_rdreg_addr .ccDesyncCount rfl,
      exec_rdreg_addr .slipCtrl rfl,
      exec_rdreg_addr .slipStart rfl,
      exec_rdreg_addr .slipEsc rfl,
      exec_rdreg_addr .slipEnd rfl,
      exec_rdreg_addr .slipEscStart rfl,
      exec_rdreg_addr .slipEscEnd rfl,
      exec_rdreg_addr .slipEscEsc rfl,
      exec_rdreg_addr .spTcLen rfl,
      exec_rdreg_addr .spAncLen rfl,
      exec_rdreg_addr .spHdrCount (Acc.read_count hhacc (by decide)),
      exec_rdreg_addr .spBodyCount (Acc.read_count hbacc (by decide)),
      exec_rdreg_addr .spDl rfl,
      exec_rdreg_addr .spHdrW0 (headerWord0_eq s.block.sp.hdr),
      exec_rdreg_addr .spHdrW1 (headerWord1_eq s.block.sp.hdr)⟩

/-- Settles O49: the invariant gives SP_LOCK = 1 in a fault. -/
theorem faultFreezesSp : Obligations.FaultFreezesSp := by
  intro i s t hs hf hi h
  obtain ⟨-, -, -, -, hfaulted, -⟩ := hs
  obtain ⟨hlock, -⟩ := hfaulted hf
  obtain ⟨code, desync, units, rdata, b, hb, rfl⟩ := exec_endsAt hi h
  exact hb.sp_of_faulted hf hlock

/-- Settles O50: SP_FEED's loop conserves its stream, and the fault flag is set only where the loop was stopped. -/
theorem spFeedConservesBytes : Obligations.SpFeedConservesBytes := by
  intro s t chunk records hs hf h hft hout
  obtain ⟨-, hsp⟩ := hs
  rcases execSpFeed_cases h with ⟨hf', -⟩ | ⟨-, u, packets, hu, rfl⟩ | ⟨-, u, packets, code, -, rfl⟩
  · simp [hf] at hf'
  · obtain rfl : packets.map OutputUnit.record = records := by simpa using hout
    have hstream := SpUnit.pushBytes_conserves s.port.params chunk (SpUnit.ready_of_inv hsp hf)
    rw [hu] at hstream
    exact hstream
  · simp at hft

/-- Settles O1: the reset table, element by element. -/
theorem resetHoldsTheStatedValues : Obligations.ResetHoldsTheStatedValues := rfl

/-- Settles O26: an address outside the map is no register's, and both commands refuse it before any other check. -/
theorem unimplementedAddressIsBadreg : Obligations.UnimplementedAddressIsBadreg := by
  intro s reg data hreg
  have hnone : Reg.ofAddr reg = none := by
    rw [Option.eq_none_iff_forall_ne_some]
    intro r hr
    rw [Reg.eq_addr_of_ofAddr hr] at hreg
    cases r <;> simp [Reg.addr] at hreg
  have hrefuse : s.refuse .badReg = s.ended s.block 0x02000000 0 [] := State.refuse_eq_ended s .badReg
  constructor
  · show execRdreg reg s = _
    rw [execRdreg, hnone, ← hrefuse]
  · show execWrreg reg data s = _
    rw [execWrreg, hnone, ← hrefuse]

end Sys2Proof.Machine
end

section
/-! Numbers on the wire are big-endian (20_memory.md R36). Every numeric field the block sends is the lowest bytes of its value,
highest first; `lowBytes` says which bytes those are, and `bigEndian_lowBytes` once and for all which number they carry. -/

namespace Sys2Proof.Machine

/-! ### The number a byte sequence carries -/

theorem bigEndian_cons (b : Byte) (bytes : List Byte) :
    bigEndian (b :: bytes) = 256 ^ bytes.length * b.toNat + bigEndian bytes := by
  induction bytes using List.reverseRecOn with
  | nil => simp [bigEndian]
  | append_singleton bytes last ih =>
    simp only [bigEndian, List.foldl_cons, List.foldl_append, List.foldl_nil, List.length_append,
      List.length_singleton] at ih ⊢
    rw [ih]
    ring

theorem toNat_byteAt {w : Nat} (k : Nat) (v : BitVec w) : (byteAt k v).toNat = v.toNat / 256 ^ k % 256 := by
  rw [byteAt, BitVec.extractLsb'_toNat, Nat.shiftRight_eq_div_pow, pow_mul]
  norm_num

/-- The `n` lowest bytes of a value, the most significant of them first. -/
def lowBytes {w : Nat} (v : BitVec w) : Nat → List Byte
  | 0 => []
  | n + 1 => byteAt n v :: lowBytes v n

@[simp] theorem length_lowBytes {w : Nat} (v : BitVec w) (n : Nat) : (lowBytes v n).length = n := by
  induction n with
  | zero => rfl
  | succ n ih => rw [lowBytes, List.length_cons, ih]

theorem bigEndian_lowBytes {w : Nat} (v : BitVec w) (n : Nat) : bigEndian (lowBytes v n) = v.toNat % 256 ^ n := by
  induction n with
  | zero => rw [pow_zero, Nat.mod_one]; rfl
  | succ n ih => rw [lowBytes, bigEndian_cons, length_lowBytes, toNat_byteAt, ih, Nat.mod_pow_succ, Nat.add_comm]

/-- Bytes enough for the value's width carry the value itself. -/
theorem bigEndian_lowBytes_of_le {w n : Nat} (v : BitVec w) (h : w ≤ 8 * n) : bigEndian (lowBytes v n) = v.toNat := by
  have hlt : v.toNat < 256 ^ n :=
    calc v.toNat < 2 ^ w := v.isLt
      _ ≤ 2 ^ (8 * n) := Nat.pow_le_pow_right (by decide) h
      _ = 256 ^ n := pow_mul 2 8 n
  rw [bigEndian_lowBytes, Nat.mod_eq_of_lt hlt]

/-! ### The fields the model sends -/

theorem bytesOfWord_eq_lowBytes (w : Word) : bytesOfWord w = lowBytes w 4 := rfl

theorem be16_eq_lowBytes (n : Nat) : be16 n = lowBytes (BitVec.ofNat 16 n) 2 := rfl

@[simp] theorem length_bytesOfWord (w : Word) : (bytesOfWord w).length = 4 := rfl

@[simp] theorem bigEndian_bytesOfWord (w : Word) : bigEndian (bytesOfWord w) = w.toNat := by
  rw [bytesOfWord_eq_lowBytes, bigEndian_lowBytes_of_le w (by decide)]

theorem bigEndian_be16 {n : Nat} (h : n < 65536) : bigEndian (be16 n) = n := by
  rw [be16_eq_lowBytes, bigEndian_lowBytes_of_le _ (by decide), BitVec.toNat_ofNat, Nat.mod_eq_of_lt h]

theorem toNat_wordOfBytes (b0 b1 b2 b3 : Byte) : (wordOfBytes b0 b1 b2 b3).toNat = bigEndian [b0, b1, b2, b3] := by
  rw [← bigEndian_bytesOfWord, bytesOfWord_wordOfBytes]

theorem Record.wire_fields (r : Record) :
    r.wire.take 1 = [r.tag] ∧ bigEndian ((r.wire.drop 1).take 3) = r.len.toNat ∧ r.wire.drop 4 = r.body := by
  have hlen : (r.wire.drop 1).take 3 = lowBytes r.len 3 := rfl
  refine ⟨rfl, ?_, rfl⟩
  rw [hlen, bigEndian_lowBytes_of_le r.len (by decide)]

theorem Response.wire_fields (r : Response) :
    r.wire.length = 8 ∧ bigEndian (r.wire.take 4) = r.resp0.toNat ∧ bigEndian (r.wire.drop 4) = r.resp1.toNat :=
  ⟨rfl, bigEndian_bytesOfWord r.resp0, bigEndian_bytesOfWord r.resp1⟩

theorem encode_take_word (i : Instr) : (encode i).take 4 = bytesOfWord (encodeWord i) :=
  List.take_left' (length_bytesOfWord _)

/-- TCLEN and ANCLEN stand behind PRES (30_encoding.md R55). -/
theorem spPacket_body_lengths (hdr : Header) (tc anc : Option (List Byte)) (data : List Byte) :
    ((OutputUnit.spPacket hdr tc anc data).body.drop 1).take 2 = be16 (tc.getD []).length
      ∧ ((OutputUnit.spPacket hdr tc anc data).body.drop 3).take 2 = be16 (anc.getD []).length := ⟨rfl, rfl⟩

/-- The 16-bit field plus one does not wrap in SP_DL's 32 bits (43_spacepacket.md R102). -/
theorem toNat_spDlDefault (h : Header) : (spDlDefault h).toNat = bigEndian [h.b4, h.b5] + 1 := by
  have hfield : (h.b4 ++ h.b5).toNat = bigEndian [h.b4, h.b5] := by
    rw [toNat_append_eq]
    simp [bigEndian, Nat.mul_comm]
  have hlt : (h.b4 ++ h.b5).toNat < 2 ^ 16 := (h.b4 ++ h.b5).isLt
  have hone : (1 : Word).toNat = 1 := rfl
  rw [← hfield, spDlDefault, BitVec.toNat_add, BitVec.toNat_setWidth, hone]
  omega

/-! ### The statement -/

/-- Settles O53: each field is the lowest bytes of its number, and as many as its width asks for. -/
theorem numbersOnTheWireAreBigEndian : Obligations.NumbersOnTheWireAreBigEndian := by
  refine ⟨Record.wire_fields, Response.wire_fields, fun i => ?_, toNat_wordOfBytes, fun hdr tc anc data htc hanc => ?_,
    toNat_spDlDefault⟩
  · rw [encode_take_word, bigEndian_bytesOfWord]
  · obtain ⟨htcBytes, hancBytes⟩ := spPacket_body_lengths hdr tc anc data
    constructor
    · rw [htcBytes, bigEndian_be16 htc]
    · rw [hancBytes, bigEndian_be16 hanc]

end Sys2Proof.Machine
end

section
/-! Every run goes on (30_encoding.md R56): under the invariant no command breaks a precondition of an accumulator, so `exec`
and `step` answer `next`, and with the invariant kept so does any number of steps. -/

namespace Sys2Proof.Machine

/-- CC_FEED answers: CC_ACC holds no whole frame, so it has room for the next byte (41_cctalk.md R76). -/
theorem execCcFeed_completes {s : State} (chunk : List Byte) (hs : s.block.cc.Inv) :
    ∃ t, execCcFeed chunk s = .next t := by
  obtain ⟨hw, hn, -⟩ := hs
  obtain ⟨hw', hn'⟩ := CcUnit.timingStep_settled s.port.now { s.block.cc with lock := true } hw hn
  obtain ⟨u, frames, hu, -⟩ := CcUnit.pushBytes_settled chunk _ hw' hn'
  simp only [execCcFeed, hu]
  exact ⟨_, rfl⟩

theorem execSlipDec_completes (chunk : List Byte) (s : State) : ∃ t, execSlipDec chunk s = .next t := by
  unfold execSlipDec
  simp only
  split <;> exact ⟨_, rfl⟩

/-- SP_FEED answers: from inside a stream its loop is never refused (43_spacepacket.md R104). -/
theorem execSpFeed_completes {s : State} (chunk : List Byte) (hs : s.block.sp.Inv) :
    ∃ t, execSpFeed chunk s = .next t := by
  cases hf : s.block.sp.fault with
  | true => exact ⟨_, if_pos hf⟩
  | false =>
    have hrun := SpUnit.pushBytes_settled s.port.params chunk (SpUnit.ready_of_inv hs hf)
    rw [execSpFeed_eq hf]
    cases hu : SpUnit.pushBytes s.port.params chunk { s.block.sp with lock := true } with
    | running u packets => exact ⟨_, rfl⟩
    | faulted u packets code => exact ⟨_, rfl⟩
    | refused r =>
      rw [hu] at hrun
      exact hrun.elim

/-- Every command answers a next state from a state that meets the invariant. -/
theorem exec_completes {s : State} (i : Instr) (hs : s.Inv) : ∃ t, exec i s = .next t := by
  obtain ⟨hcc, hsp⟩ := hs
  cases i with
  | nop => exact ⟨_, rfl⟩
  | reset => exact ⟨_, rfl⟩
  | rdreg reg =>
    show ∃ t, execRdreg reg s = .next t
    unfold execRdreg
    split <;> exact ⟨_, rfl⟩
  | wrreg reg data =>
    show ∃ t, execWrreg reg data s = .next t
    unfold execWrreg
    repeat' split
    all_goals exact ⟨_, rfl⟩
  | ccFeed chunk => exact execCcFeed_completes chunk hcc
  | ccDiscard => exact ⟨_, rfl⟩
  | slipEnc chunk => exact ⟨_, rfl⟩
  | slipDec chunk => exact execSlipDec_completes chunk s
  | spFeed chunk => exact execSpFeed_completes chunk hsp
  | spFlush =>
    show ∃ t, execSpFlush s = .next t
    unfold execSpFlush
    split <;> exact ⟨_, rfl⟩
  | spDiscard =>
    show ∃ t, execSpDiscard s = .next t
    unfold execSpDiscard
    split <;> exact ⟨_, rfl⟩

/-- A step that runs no command answers too; a command runs from the state with its bytes taken, which meets the invariant. -/
theorem step_completes {s : State} (hs : s.Inv) : ∃ t, step s = .next t := by
  unfold step
  split
  · exact ⟨_, rfl⟩
  · exact ⟨_, rfl⟩
  · rename_i bytes now rest _
    split
    · rename_i i _ _
      exact exec_completes (s := s.accept now rest) i hs
    · exact ⟨_, rfl⟩

/-- A property from which every step goes on, and which every step keeps, holds after any number of steps. -/
theorem run_completes (M : Host.Core) (P : M.State → Prop) (hstep : ∀ s, P s → ∃ t, M.step s = .next t ∧ P t) (k : Nat)
    (s : M.State) (hs : P s) : ∃ t, M.run k s = .next t ∧ P t := by
  induction k generalizing s with
  | zero => exact ⟨s, rfl, hs⟩
  | succ k ih =>
    obtain ⟨u, hu, hPu⟩ := hstep s hs
    obtain ⟨t, ht, hPt⟩ := ih u hPu
    exact ⟨t, by rw [Host.Core.run, hu]; exact ht, hPt⟩

/-- Settles O5: each step goes on and keeps the invariant, and so does a run. -/
theorem everyRunCompletes : Obligations.EveryRunCompletes := by
  intro k s hs
  refine run_completes Sys2Proof.core State.Inv (fun u hu => ?_) k s hs
  obtain ⟨t, ht⟩ := step_completes hu
  exact ⟨t, ht, stepKeepsInvariant u t hu ht⟩

end Sys2Proof.Machine
end

section
/-! Words and commands (30_encoding.md R45 to R52). `decodeWord_eq_ok` says once which words are a command's; that the decoder and
the encoder are inverse, and what a step does with the bytes of a word, follow from it. -/

namespace Sys2Proof

/-! ### The words of a command -/

theorem word_eq_append {w : Word} {opc reg : Byte} {data : Half} :
    w = opc ++ reg ++ data ↔ opcField w = opc ∧ regField w = reg ∧ dataField w = data := by
  constructor
  · rintro rfl
    exact Laws.fields_of_append opc reg data
  · rintro ⟨rfl, rfl, rfl⟩
    exact (word_eq_fields w).symm

/-- The reserved bits of format N are 0 exactly when the REG and DATA fields are. -/
theorem lowField_eq_zero {w : Word} : lowField w = 0 ↔ regField w = 0 ∧ dataField w = 0 := by
  have hlow := Machine.toNat_append_eq (regField w) (dataField w)
  rw [lowField_eq_fields, BitVec.toNat_eq, BitVec.toNat_eq, BitVec.toNat_eq, hlow]
  simp

theorem decodeN_eq_ok {w : Word} {i j : Instr} :
    decodeN w i = .ok j ↔ j = i ∧ regField w = 0 ∧ dataField w = 0 := by
  rw [← lowField_eq_zero, decodeN]
  split <;> simp_all [eq_comm]

theorem decodeC_eq_ok {w : Word} {i j : Instr} : decodeC w i = .ok j ↔ j = i ∧ regField w = 0 := by
  rw [decodeC]
  split <;> simp_all [eq_comm]

theorem decodeRead_eq_ok {w : Word} {j : Instr} :
    decodeRead w = .ok j ↔ j = .rdreg (regField w) ∧ dataField w = 0 := by
  rw [decodeRead]
  split <;> simp_all [eq_comm]

/-- `w`, with the bytes `chunk` of its data phase, is a word of the command: its fields are the command's, but that the LEN of a
format C word is not compared with the bytes given. -/
def Instr.IsWord (i : Instr) (w : Word) (chunk : List Byte) : Prop :=
  opcField w = i.opcode ∧ regField w = i.regOperand
    ∧ if isChunkOpcode i.opcode then i.chunk = chunk else dataField w = i.dataOperand

theorem isWord_of_decodeN {w : Word} {chunk : List Byte} {i j : Instr} (h : decodeN w i = .ok j)
    (hopc : (opcField w).toNat = i.opcode.toNat) (hreg : i.regOperand = 0) (hdata : i.dataOperand = 0)
    (hformat : isChunkOpcode i.opcode = false) : j.IsWord w chunk := by
  obtain ⟨rfl, hwreg, hwdata⟩ := decodeN_eq_ok.1 h
  exact ⟨BitVec.eq_of_toNat_eq hopc, hwreg.trans hreg.symm, by simp [hformat, hwdata, hdata]⟩

theorem isWord_of_decodeC {w : Word} {chunk : List Byte} {i j : Instr} (h : decodeC w i = .ok j)
    (hopc : (opcField w).toNat = i.opcode.toNat) (hreg : i.regOperand = 0) (hchunk : i.chunk = chunk)
    (hformat : isChunkOpcode i.opcode = true) : j.IsWord w chunk := by
  obtain ⟨rfl, hwreg⟩ := decodeC_eq_ok.1 h
  exact ⟨BitVec.eq_of_toNat_eq hopc, hwreg.trans hreg.symm, by simp [hformat, hchunk]⟩

/-- What the decoder accepts is a word of the command it answers: the twelve rows of its map, in order. -/
theorem isWord_of_decodeWord {w : Word} {chunk : List Byte} {i : Instr} (h : decodeWord w chunk = .ok i) :
    i.IsWord w chunk := by
  unfold decodeWord at h
  split at h
  next hopc => exact isWord_of_decodeN h hopc rfl rfl rfl
  next hopc => exact isWord_of_decodeN h hopc rfl rfl rfl
  next hopc =>
    obtain ⟨rfl, hdata⟩ := decodeRead_eq_ok.1 h
    exact ⟨BitVec.eq_of_toNat_eq hopc, rfl, hdata⟩
  next hopc =>
    cases h
    exact ⟨BitVec.eq_of_toNat_eq hopc, rfl, rfl⟩
  next hopc => exact isWord_of_decodeC h hopc rfl rfl rfl
  next hopc => exact isWord_of_decodeN h hopc rfl rfl rfl
  next hopc => exact isWord_of_decodeC h hopc rfl rfl rfl
  next hopc => exact isWord_of_decodeC h hopc rfl rfl rfl
  next hopc => exact isWord_of_decodeC h hopc rfl rfl rfl
  next hopc => exact isWord_of_decodeN h hopc rfl rfl rfl
  next hopc => exact isWord_of_decodeN h hopc rfl rfl rfl
  next => cases h

/-- The decoder accepts the words of the eleven commands and no other (30_encoding.md R50). -/
theorem decodeWord_eq_ok {w : Word} {chunk : List Byte} {i : Instr} :
    decodeWord w chunk = .ok i ↔ i.IsWord w chunk := by
  refine ⟨isWord_of_decodeWord, fun ⟨hopc, hreg, hdata⟩ => ?_⟩
  cases i <;> simp only [decodeWord, hopc]
  case nop | reset | ccDiscard | spFlush | spDiscard => exact decodeN_eq_ok.2 ⟨rfl, hreg, hdata⟩
  case rdreg => exact decodeRead_eq_ok.2 ⟨congrArg Instr.rdreg hreg.symm, hdata⟩
  case wrreg => exact congrArg Except.ok (congrArg₂ Instr.wrreg hreg hdata)
  case ccFeed => exact decodeC_eq_ok.2 ⟨congrArg Instr.ccFeed hdata, hreg⟩
  case slipEnc => exact decodeC_eq_ok.2 ⟨congrArg Instr.slipEnc hdata, hreg⟩
  case slipDec => exact decodeC_eq_ok.2 ⟨congrArg Instr.slipDec hdata, hreg⟩
  case spFeed => exact decodeC_eq_ok.2 ⟨congrArg Instr.spFeed hdata, hreg⟩

/-- A command without a data phase has one word. -/
theorem Instr.isWord_iff_encodeWord {i : Instr} (hi : isChunkOpcode i.opcode = false) {w : Word} {chunk : List Byte} :
    i.IsWord w chunk ↔ w = encodeWord i := by
  simp [Instr.IsWord, encodeWord, word_eq_append, hi]

/-- A format C command has a word for each LEN. -/
theorem Instr.isWord_iff_exists_len {i : Instr} (hi : isChunkOpcode i.opcode = true) {w : Word} {chunk : List Byte} :
    i.IsWord w chunk ↔ i.chunk = chunk ∧ ∃ len : Half, w = i.opcode ++ i.regOperand ++ len := by
  simp [Instr.IsWord, word_eq_append, hi]
  tauto

/-- Settles O8: a command without a data phase has one word, and a format C command one for each LEN. -/
theorem decodeWordFollowsTheOpcodeMap : Obligations.DecodeWordFollowsTheOpcodeMap := by
  intro w chunk i
  rw [decodeWord_eq_ok]
  cases i
  case nop | reset | rdreg | wrreg | ccDiscard | spFlush | spDiscard =>
    rw [Instr.isWord_iff_encodeWord rfl]
    simp [encodeWord, Instr.opcode, Instr.regOperand, Instr.dataOperand]
  all_goals
    rw [Instr.isWord_iff_exists_len rfl]
    simp [Instr.chunk, Instr.opcode, Instr.regOperand]

/-! ### Opcodes and reserved bits -/

theorem isChunkOpcode_eq_true {opc : Byte} :
    isChunkOpcode opc = true ↔ opc ∈ ([0x10, 0x20, 0x21, 0x30] : List Byte) := by
  simp [isChunkOpcode, or_assoc]

theorem dataPhase_eq_zero {w : Word} (h : isChunkOpcode (opcField w) = false) : dataPhase w = 0 := by
  simp [dataPhase, h]

theorem dataPhase_eq_len {w : Word} (h : isChunkOpcode (opcField w) = true) : dataPhase w = (dataField w).toNat :=
  if_pos h

/-- The eleven opcodes of 30_encoding.md R49. -/
theorem Instr.opcode_mem (i : Instr) :
    i.opcode ∈ ([0x00, 0x01, 0x02, 0x03, 0x10, 0x11, 0x20, 0x21, 0x30, 0x31, 0x32] : List Byte) := by
  cases i <;> simp [Instr.opcode]

/-- The opcodes of format N (30_encoding.md R49). -/
abbrev formatNOpcodes : List Byte := [0x00, 0x01, 0x11, 0x31, 0x32]

theorem isChunkOpcode_of_formatN {opc : Byte} (h : opc ∈ formatNOpcodes) : isChunkOpcode opc = false := by
  have hall : ∀ opc ∈ formatNOpcodes, isChunkOpcode opc = false := by decide
  exact hall opc h

/-- A format N command carries no operand (30_encoding.md R46). -/
theorem Instr.operands_of_formatN {i : Instr} (h : i.opcode ∈ formatNOpcodes) :
    i.regOperand = 0 ∧ i.dataOperand = 0 := by
  cases i
  case nop | reset | ccDiscard | spFlush | spDiscard => exact ⟨rfl, rfl⟩
  all_goals simp [Instr.opcode] at h

section
variable {i : Instr} {w : Word} {chunk : List Byte}

/-- Format N: bits 23:0 are 0 (30_encoding.md R46). -/
theorem Instr.IsWord.lowField_eq_zero (h : i.IsWord w chunk) (hopc : opcField w ∈ formatNOpcodes) : lowField w = 0 := by
  obtain ⟨hiopc, hreg, hdata⟩ := h
  rw [hiopc] at hopc
  obtain ⟨hreg0, hdata0⟩ := Instr.operands_of_formatN hopc
  rw [isChunkOpcode_of_formatN hopc] at hdata
  exact Sys2Proof.lowField_eq_zero.2 ⟨hreg.trans hreg0, hdata.trans hdata0⟩

/-- RDREG: DATA is 0 (30_encoding.md R47). -/
theorem Instr.IsWord.dataField_eq_zero (h : i.IsWord w chunk) (hopc : opcField w = 0x02) : dataField w = 0 := by
  obtain ⟨hiopc, -, hdata⟩ := h
  rw [hiopc] at hopc
  cases i
  case rdreg => exact hdata
  all_goals simp [Instr.opcode] at hopc

/-- Format C: bits 23:16 are 0 (30_encoding.md R48). -/
theorem Instr.IsWord.regField_eq_zero (h : i.IsWord w chunk) (hopc : isChunkOpcode (opcField w) = true) :
    regField w = 0 := by
  obtain ⟨hiopc, hreg, -⟩ := h
  rw [hiopc] at hopc
  cases i
  case ccFeed | slipEnc | slipDec | spFeed => exact hreg
  all_goals cases hopc

end

/-! ### The decoder and the encoder -/

/-- The LEN field of a format C command is the length of its chunk (30_encoding.md R48). -/
theorem Instr.dataOperand_eq_length {i : Instr} (hformat : isChunkOpcode i.opcode = true) :
    i.dataOperand = BitVec.ofNat 16 i.chunk.length := by
  cases i
  case ccFeed | slipEnc | slipDec | spFeed => rfl
  all_goals cases hformat

theorem Instr.wellFormed_iff {i : Instr} : i.WellFormed ↔ i.chunk.length < 2 ^ 16 := by
  rw [Instr.WellFormed, Instr.wellFormed, decide_eq_true_eq, Config.maxChunk]
  omega

/-- Only a format C command has a data phase (30_encoding.md R48). -/
theorem Instr.chunk_eq_nil {i : Instr} (hformat : isChunkOpcode i.opcode = false) : i.chunk = [] := by
  cases i
  case ccFeed | slipEnc | slipDec | spFeed => cases hformat
  all_goals rfl

/-- The block takes as many data bytes after a command's word as the command has. -/
theorem dataPhase_encodeWord {i : Instr} (hi : i.WellFormed) : dataPhase (encodeWord i) = i.chunk.length := by
  obtain ⟨-, hopc, -, hdata⟩ := Laws.EncodedFields.all i
  rw [dataPhase, hopc, hdata]
  split
  · rename_i hformat
    rw [Instr.dataOperand_eq_length hformat, BitVec.toNat_ofNat, Nat.mod_eq_of_lt (Instr.wellFormed_iff.1 hi)]
  · rename_i hformat
    rw [Instr.chunk_eq_nil (Bool.eq_false_iff.2 hformat), List.length_nil]

/-- The command's own word is a word of it. -/
theorem decodeWord_encodeWord (i : Instr) : decodeWord (encodeWord i) i.chunk = .ok i := by
  obtain ⟨-, hopc, hreg, hdata⟩ := Laws.EncodedFields.all i
  exact decodeWord_eq_ok.2 ⟨hopc, hreg, by simp [hdata]⟩

/-- A word of a command, with as many data bytes as it asks for, is the word the encoder gives the command. -/
theorem Instr.IsWord.eq_encodeWord {i : Instr} {w : Word} {chunk : List Byte} (h : i.IsWord w chunk)
    (hlen : chunk.length = dataPhase w) : i.WellFormed ∧ w = encodeWord i ∧ i.chunk = chunk := by
  cases hformat : isChunkOpcode i.opcode with
  | false =>
    have hw : w = encodeWord i := (Instr.isWord_iff_encodeWord hformat).1 h
    have hnil : i.chunk = [] := Instr.chunk_eq_nil hformat
    have hwf : i.WellFormed := Instr.wellFormed_iff.2 (by simp [hnil])
    refine ⟨hwf, hw, ?_⟩
    rw [hw, dataPhase_encodeWord hwf, hnil] at hlen
    rw [hnil, List.eq_nil_of_length_eq_zero hlen]
  | true =>
    obtain ⟨rfl, len, rfl⟩ := (Instr.isWord_iff_exists_len hformat).1 h
    obtain ⟨hopc, -, hdata⟩ := Laws.fields_of_append i.opcode i.regOperand len
    rw [dataPhase, hopc, hdata, if_pos hformat] at hlen
    refine ⟨Instr.wellFormed_iff.2 (hlen ▸ len.isLt), ?_, rfl⟩
    rw [encodeWord, Instr.dataOperand_eq_length hformat, hlen, BitVec.ofNat_toNat, BitVec.setWidth_eq]

/-- Decoding takes a word, the data bytes it asks for, and leaves the rest. -/
theorem decode_append {w : Word} {data : List Byte} (hlen : data.length = dataPhase w) (rest : List Byte) :
    decode (bytesOfWord w ++ data ++ rest) = (decodeWord w data).map (·, rest) := by
  have hrest : ¬(data ++ rest).length < dataPhase w := by simp [hlen]
  simp only [bytesOfWord, List.cons_append, List.nil_append, decode, wordOfBytes_bytesOfWord]
  rw [if_neg hrest, ← hlen, List.take_left, List.drop_left]
  cases decodeWord w data <;> rfl

/-- Bytes the decoder accepts are a word, the data bytes it asks for, and the rest. -/
theorem decode_eq_ok {bytes rest : List Byte} {i : Instr} (h : decode bytes = .ok (i, rest)) :
    ∃ w data, bytes = bytesOfWord w ++ data ++ rest ∧ data.length = dataPhase w ∧ decodeWord w data = .ok i := by
  unfold decode at h
  split at h
  · rename_i b0 b1 b2 b3 tail
    simp only at h
    split at h
    · cases h
    · rename_i hlen
      split at h
      · rename_i j hj
        cases h
        refine ⟨wordOfBytes b0 b1 b2 b3, _, ?_, ?_, hj⟩
        · simp [bytesOfWord_wordOfBytes]
        · rw [List.length_take]; omega
      · cases h
  · cases h

/-- Settles O6: a command's own word and its chunk are what the decoder takes. -/
theorem decodeInvertsEncode : Obligations.DecodeInvertsEncode := by
  intro i rest hi
  rw [encode, decode_append (dataPhase_encodeWord hi).symm, decodeWord_encodeWord]
  rfl

/-- Settles O7: the word the decoder took is the one the encoder gives. -/
theorem encodeInvertsDecode : Obligations.EncodeInvertsDecode := by
  intro bytes rest i h
  obtain ⟨w, data, rfl, hlen, hi⟩ := decode_eq_ok h
  obtain ⟨hwf, rfl, rfl⟩ := (isWord_of_decodeWord hi).eq_encodeWord hlen
  exact ⟨hwf, rfl⟩

end Sys2Proof

namespace Sys2Proof.Machine

/-! ### A step on the bytes of a word -/

/-- A word and the data bytes it asks for are taken whole, with TIME sampled at the word's last byte (41_cctalk.md R69), whatever
the host does next. -/
theorem State.fetch_sent {s : State} {w : Word} {data : List Byte} {stamps : List Word} {rest : List HostEvent}
    (hdata : data.length = dataPhase w) (hstamps : stamps.length = 4 + data.length)
    (hinput : s.port.input = stamped stamps (bytesOfWord w ++ data) ++ rest) :
    s.fetch = .command (bytesOfWord w ++ data) (stamps.getD 3 0) rest := by
  rw [Nat.add_comm] at hstamps
  match stamps, hstamps with
  | t0 :: t1 :: t2 :: t3 :: times, hstamps =>
    have hword : takeBytes 4 s.port.now s.port.input = .got (bytesOfWord w) t3 (stamped times data ++ rest) := by
      rw [hinput]
      rfl
    have hphase : dataPhaseOf (bytesOfWord w) = data.length := by
      rw [hdata, bytesOfWord, dataPhaseOf, wordOfBytes_bytesOfWord]
    have hrest := takeBytes_stamped times data (by simpa using hstamps) t3 rest
    simp only [State.fetch, hword, hphase, hrest]
    rfl

/-- A step on the bytes of a command runs it. -/
theorem step_sent_command {s : State} {w : Word} {data : List Byte} {stamps : List Word} {rest : List HostEvent}
    {i : Instr} (hdata : data.length = dataPhase w) (hstamps : stamps.length = 4 + data.length)
    (hinput : s.port.input = stamped stamps (bytesOfWord w ++ data) ++ rest) (hi : decodeWord w data = .ok i) :
    step s = exec i (s.accept (stamps.getD 3 0) rest) := by
  have hdecode := decode_append hdata []
  rw [List.append_nil, hi] at hdecode
  simp only [step, State.fetch_sent hdata hstamps hinput, hdecode]
  rfl

/-- A step on the bytes of a word that is no command's refuses it, having taken the data bytes its opcode calls for. -/
theorem step_sent_illegal {s : State} {w : Word} {data : List Byte} {stamps : List Word} {rest : List HostEvent}
    (hdata : data.length = dataPhase w) (hstamps : stamps.length = 4 + data.length)
    (hinput : s.port.input = stamped stamps (bytesOfWord w ++ data) ++ rest)
    (hillegal : ∀ i : Instr, ¬i.IsWord w data) :
    step s = .next ((s.accept (stamps.getD 3 0) rest).ended s.block 0x01000000 0 []) := by
  have hdecode := decode_append hdata []
  rw [List.append_nil] at hdecode
  cases hw : decodeWord w data with
  | ok i => exact absurd (isWord_of_decodeWord hw) (hillegal i)
  | error e =>
    rw [hw] at hdecode
    simp only [step, State.fetch_sent hdata hstamps hinput, hdecode]
    exact congrArg Host.Outcome.next (State.refuse_eq_ended _ .illegal)

/-- Settles O10: the command's own word and chunk are the bytes sent. -/
theorem stepRunsTheDecodedCommand : Obligations.StepRunsTheDecodedCommand := by
  intro s i stamps rest hi hstamps hinput
  obtain ⟨hlen, -⟩ := Laws.EncodedFields.all i
  exact step_sent_command (dataPhase_encodeWord hi).symm (hstamps.trans hlen) hinput (decodeWord_encodeWord i)

/-- Settles O11: no command has such an opcode, and its word has no data phase. -/
theorem unknownOpcodeIsRefusedWithoutDataPhase : Obligations.UnknownOpcodeIsRefusedWithoutDataPhase := by
  intro s w stamps rest hopc hstamps hinput
  have hformat : isChunkOpcode (opcField w) = false := by
    rw [Bool.eq_false_iff, ne_eq, isChunkOpcode_eq_true]
    exact fun hmem => hopc (by simp only [List.mem_cons] at hmem ⊢; tauto)
  refine step_sent_illegal (data := []) (dataPhase_eq_zero hformat).symm hstamps
    (by rw [List.append_nil]; exact hinput) fun i ⟨hiopc, _⟩ => hopc ?_
  show opcField w ∈ _
  rw [hiopc]
  exact i.opcode_mem

/-- Settles O12: in each format a word of a command has its reserved bits 0. -/
theorem reservedBitsAreRefused : Obligations.ReservedBitsAreRefused := by
  rintro s w data stamps rest hw hstamps hinput
  rcases hw with ⟨hopc, hlow, rfl⟩ | ⟨hopc, hdata, rfl⟩ | ⟨hopc, hreg, hlen⟩
  · have hformat : isChunkOpcode (opcField w) = false := isChunkOpcode_of_formatN hopc
    refine step_sent_illegal (data := []) (dataPhase_eq_zero hformat).symm hstamps hinput fun i hi => hlow ?_
    exact hi.lowField_eq_zero hopc
  · have hformat : isChunkOpcode (opcField w) = false := by rw [show opcField w = 0x02 from hopc]; rfl
    refine step_sent_illegal (data := []) (dataPhase_eq_zero hformat).symm hstamps hinput fun i hi => hdata ?_
    exact hi.dataField_eq_zero hopc
  · have hformat : isChunkOpcode (opcField w) = true := isChunkOpcode_eq_true.2 hopc
    refine step_sent_illegal (hlen.trans (dataPhase_eq_len hformat).symm) hstamps hinput fun i hi => hreg ?_
    exact hi.regField_eq_zero hformat

end Sys2Proof.Machine
end

section
/-! What a command sends (30_encoding.md R53 to R55): one response and some records. `exec_answers` lists the code, the output
units and the read data each command can answer with. That NOUT counts the records and LEN measures each BODY follows from how
many units, and how long, the loops of CC_FEED and SP_FEED can emit. -/

namespace Sys2Proof.Machine

/-! ### The answers of a command -/

/-- The packets a run of SP_FEED's loop has emitted. -/
def SpRun.emitted : SpRun → List OutputUnit
  | .running _ packets => packets
  | .faulted _ packets _ => packets
  | .refused _ => []

/-- `Answers s i code units rdata`: from `s` the command `i` can respond with `code` and `rdata`, having sent `units`. Which code
an answer without units has is left open, since no statement here asks. -/
inductive Answers (s : State) : Instr → Code → List OutputUnit → Word → Prop
  | silent (i : Instr) (code : Code) : Answers s i code [] 0
  | read (reg : Byte) (value : Word) : Answers s (.rdreg reg) .ok [] value
  | ccFrames (chunk : List Byte) (u : CcUnit) (frames : List OutputUnit)
      (hu : CcUnit.pushBytes chunk (({ s.block.cc with lock := true } : CcUnit).timingStep s.port.now) = .ok (u, frames)) :
      Answers s (.ccFeed chunk) .ok frames 0
  | slipFrame (chunk : List Byte) :
      Answers s (.slipEnc chunk) .ok [.slipEnc (SlipUnit.frame { s.block.slip with lock := true } chunk)] 0
  | slipPayload (chunk out : List Byte) (hout : s.block.slip.payload chunk = some out) :
      Answers s (.slipDec chunk) .ok [.slipDec out] 0
  | spPackets (chunk : List Byte) (code : Code) (hf : s.block.sp.fault = false) (packets : List OutputUnit)
      (hp : (SpUnit.pushBytes s.port.params chunk { s.block.sp with lock := true }).emitted = packets) :
      Answers s (.spFeed chunk) code packets 0
  | spResidue : Answers s .spFlush .ok [.spResidue (s.block.sp.hacc.bytes ++ s.block.sp.bacc.bytes)] 0

/-- What `t` has sent and `s` had not: the response and the records of one answer. -/
def Answered (i : Instr) (s t : State) : Prop :=
  ∃ (code : Code) (desync : Bool) (units : List OutputUnit) (rdata : Word), Answers s i code units rdata
    ∧ t.port.responses = s.port.responses ++ [respond code desync units.length rdata]
    ∧ t.port.output = s.port.output ++ units.map OutputUnit.record

/-- A command that ends with `finish` sends its answer. -/
theorem Answers.answered {i : Instr} {s : State} {code : Code} {units : List OutputUnit} {rdata : Word}
    (h : Answers s i code units rdata) (desync : Bool) (b : Block) :
    Answered i s (s.finish code desync units rdata b) :=
  ⟨code, desync, units, rdata, h, rfl, rfl⟩

/-- Everything a command can send. -/
theorem exec_answered {i : Instr} {s t : State} (h : exec i s = .next t) : Answered i s t := by
  cases i with
  | nop => cases h; exact (Answers.silent _ _).answered _ _
  | reset => cases h; exact ⟨_, _, _, _, .silent _ _, rfl, rfl⟩
  | rdreg reg =>
    rcases execRdreg_cases h with ⟨-, rfl⟩ | ⟨r, -, rfl⟩
    · exact (Answers.silent _ _).answered _ _
    · exact (Answers.read reg _).answered _ _
  | wrreg reg data =>
    rcases execWrreg_cases h with ⟨code, rfl, -⟩ | ⟨r, -, -, -, -, rfl⟩
    · exact (Answers.silent _ _).answered _ _
    · exact (Answers.silent _ _).answered _ _
  | ccFeed chunk =>
    obtain ⟨u, frames, hu, rfl⟩ := execCcFeed_cases h
    exact (Answers.ccFrames chunk u frames hu).answered _ _
  | ccDiscard => cases h; exact (Answers.silent _ _).answered _ _
  | slipEnc chunk =>
    cases h
    unfold SlipUnit.encoded
    split
    · exact (Answers.silent _ _).answered _ _
    · exact (Answers.slipFrame chunk).answered _ _
  | slipDec chunk =>
    rcases execSlipDec_cases h with ⟨out, hout, rfl⟩ | ⟨-, rfl⟩
    · exact (Answers.slipPayload chunk out hout).answered _ _
    · exact (Answers.silent _ _).answered _ _
  | spFeed chunk =>
    rcases execSpFeed_cases h with ⟨-, rfl⟩ | ⟨hf, u, packets, hu, rfl⟩ | ⟨hf, u, packets, code, hu, rfl⟩
    · exact (Answers.silent _ _).answered _ _
    · exact (Answers.spPackets chunk .ok hf packets (by rw [hu]; rfl)).answered _ _
    · exact (Answers.spPackets chunk code hf packets (by rw [hu]; rfl)).answered _ _
  | spFlush =>
    rcases execSpFlush_cases h with ⟨-, rfl⟩ | ⟨-, rfl⟩
    · exact (Answers.silent _ _).answered _ _
    · unfold SpUnit.residue
      split
      · exact Answers.spResidue.answered _ _
      · exact (Answers.silent _ _).answered _ _
  | spDiscard =>
    rcases execSpDiscard_cases h with ⟨-, rfl⟩ | ⟨-, rfl⟩
    · exact (Answers.silent _ _).answered _ _
    · exact (Answers.silent _ _).answered _ _

/-! ### The response -/

/-- FLAGS[7:1] of a response word. -/
theorem extract_flags (w : Word) : w.extractLsb' 17 7 = (regField w).extractLsb' 1 7 := by
  refine BitVec.eq_of_getLsbD_eq fun k hk => ?_
  have hk' : 1 + k < 8 := by omega
  simp [regField, hk, hk', ← Nat.add_assoc]

/-- The fields of RESP0 (30_encoding.md R53). -/
theorem respond_fields (code : Code) (desync : Bool) (nout : Nat) (rdata : Word) :
    (respond code desync nout rdata).resp0.extractLsb' 0 16 = BitVec.ofNat 16 nout
      ∧ (respond code desync nout rdata).resp0.extractLsb' 17 7 = 0
      ∧ (respond code desync nout rdata).resp0.extractLsb' 24 8 = code.value := by
  obtain ⟨hopc, hreg, hdata⟩ := Laws.fields_of_append code.value ((bit desync).setWidth 8) (BitVec.ofNat 16 nout)
  refine ⟨hdata, ?_, hopc⟩
  rw [extract_flags]
  show (regField (code.value ++ (bit desync).setWidth 8 ++ BitVec.ofNat 16 nout)).extractLsb' 1 7 = 0
  rw [hreg]
  cases desync <;> rfl

/-- The eleven codes of 60_exceptions.md R122. -/
theorem Code.value_mem (code : Code) :
    code.value ∈ ([0x00, 0x01, 0x02, 0x03, 0x04, 0x05, 0x06, 0x07, 0x80, 0x81, 0x82] : List Byte) := by
  cases code <;> decide

/-- Only an RDREG that answers OK has read data. -/
theorem Answers.rdata_eq_zero {i : Instr} {s : State} {code : Code} {units : List OutputUnit} {rdata : Word}
    (h : Answers s i code units rdata) (hno : (∀ reg, i ≠ .rdreg reg) ∨ code.value ≠ 0) : rdata = 0 := by
  cases h with
  | read reg value =>
    rcases hno with hi | hcode
    · exact absurd rfl (hi reg)
    · exact absurd rfl hcode
  | _ => rfl

/-- Settles O16: the response of an answer has its code, its number of units and its read data in the fields of R53. -/
theorem everyCommandGivesOneResponse : Obligations.EveryCommandGivesOneResponse := by
  intro i s t h
  obtain ⟨code, desync, units, rdata, hans, hresp, hout⟩ := exec_answered h
  obtain ⟨hnout, hflags, hcode⟩ := respond_fields code desync units.length rdata
  refine ⟨_, _, hresp, hout, by rw [hnout, List.length_map], hflags, hcode ▸ code.value_mem, fun hno => ?_⟩
  exact hans.rdata_eq_zero (hcode ▸ hno)

/-! ### CC: frames -/

theorem CcUnit.length_lt_of_noWholeFrame {u : CcUnit} (hs : u.NoWholeFrame) : u.acc.bytes.length < 260 := by
  have hbyte := (u.acc.bytes.getD 1 0).isLt
  rcases hs with h | h <;> omega

/-- One byte of CC_FEED: a frame takes at least five bytes of those held, and no frame is longer than CC_ACC. -/
theorem CcUnit.pushByte_emits {b : Byte} {u v : CcUnit} {frames : List OutputUnit} (hw : u.acc.Wf Config.ccBufCap)
    (hs : u.NoWholeFrame) (h : u.pushByte b = .ok (v, frames)) :
    5 * frames.length + v.acc.bytes.length ≤ u.acc.bytes.length + 1 ∧ ∀ x ∈ frames, x.body.length ≤ Config.ccBufCap := by
  have hlen := CcUnit.length_lt_of_noWholeFrame hs
  rw [CcUnit.pushByte_eq b u hw hs] at h
  split at h
  · rename_i hframe
    cases h
    obtain ⟨-, hfive⟩ := hframe
    simp only [List.length_append, List.length_singleton] at hfive
    constructor
    · simp only [List.length_singleton, List.length_nil]
      omega
    · simpa [OutputUnit.body, Config.ccBufCap] using hlen
  · cases h
    simp

/-- CC_FEED's loop: five bytes at least for each frame, of those held and those fed. -/
theorem CcUnit.pushBytes_emits {chunk : List Byte} {u v : CcUnit} {frames : List OutputUnit}
    (hw : u.acc.Wf Config.ccBufCap) (hs : u.NoWholeFrame) (h : CcUnit.pushBytes chunk u = .ok (v, frames)) :
    5 * frames.length + v.acc.bytes.length ≤ u.acc.bytes.length + chunk.length
      ∧ ∀ x ∈ frames, x.body.length ≤ Config.ccBufCap := by
  induction chunk generalizing u frames with
  | nil => cases h; simp
  | cons b rest ih =>
    simp only [CcUnit.pushBytes] at h
    split at h
    · cases h
    · rename_i w first hfirst
      split at h
      · cases h
      · rename_i w' more hmore
        cases h
        obtain ⟨hw', hs', -⟩ := CcUnit.pushByte_settled hw hs hfirst
        obtain ⟨hcount, hfit⟩ := CcUnit.pushByte_emits hw hs hfirst
        obtain ⟨hcount', hfit'⟩ := ih hw' hs' hmore
        refine ⟨?_, List.forall_mem_append.2 ⟨hfit, hfit'⟩⟩
        simp only [List.length_append, List.length_cons]
        omega

/-! ### SLIP: frames and payloads -/

theorem SlipUnit.length_escaped_le (u : SlipUnit) (chunk : List Byte) :
    (chunk.flatMap u.escape).length ≤ 2 * chunk.length := by
  induction chunk with
  | nil => simp
  | cons b rest ih =>
    simp only [List.flatMap_cons, List.length_append, List.length_cons]
    rcases u.escape_length b with h | h <;> omega

theorem SlipUnit.length_leader_le (u : SlipUnit) : u.leader.length ≤ 2 := by
  unfold SlipUnit.leader
  cases u.quirk <;> cases u.startEn <;> simp

theorem SlipUnit.length_frame_le (u : SlipUnit) (chunk : List Byte) : (u.frame chunk).length ≤ 2 * chunk.length + 3 := by
  have hleader := u.length_leader_le
  have hbody := u.length_escaped_le chunk
  simp only [SlipUnit.frame, List.length_append, List.length_singleton]
  omega

/-- A body decodes to at most a byte for each of its own (42_slip.md R94). -/
theorem SlipUnit.length_decodeBody_le (u : SlipUnit) {body out : List Byte} (h : u.decodeBody body = some out) :
    out.length ≤ body.length := by
  induction body using SlipUnit.decodeBody.induct u generalizing out with
  | case1 => cases h; exact Nat.le_refl _
  | case2 => simp [SlipUnit.decodeBody] at h
  | case3 b hb hc =>
    obtain rfl : [b] = out := by simpa [SlipUnit.decodeBody, hb, hc] using h
    exact Nat.le_refl _
  | case4 b hb hc => simp [SlipUnit.decodeBody, hb, hc] at h
  | case5 x rest hx => simp [u.decodeBody_pair, hx] at h
  | case6 x rest y hx ih =>
    simp only [u.decodeBody_pair, hx] at h
    obtain ⟨more, hmore, rfl⟩ := Option.map_eq_some_iff.1 h
    exact (Nat.succ_le_succ (ih hmore)).trans (Nat.le_succ _)
  | case7 b x rest hb hc ih =>
    rw [u.decodeBody_plain b _ hb, if_pos hc] at h
    obtain ⟨more, hmore, rfl⟩ := Option.map_eq_some_iff.1 h
    exact Nat.succ_le_succ (ih hmore)
  | case8 b x rest hb hc => simp [u.decodeBody_plain b _ hb, hc] at h

theorem length_dropByte_le {b : Byte} {chunk rest : List Byte} (h : dropByte b chunk = some rest) :
    rest.length ≤ chunk.length := by
  unfold dropByte at h
  split at h
  · cases h
  · split at h
    · cases h; simp
    · cases h

theorem SlipUnit.length_dropLeader_le (u : SlipUnit) {chunk rest : List Byte} (h : u.dropLeader chunk = some rest) :
    rest.length ≤ chunk.length := by
  unfold SlipUnit.dropLeader at h
  split at h
  · cases h
  · rename_i afterEnd hend
    have hafter : afterEnd.length ≤ chunk.length := by
      split at hend
      · exact length_dropByte_le hend
      · cases hend; exact Nat.le_refl _
    split at h
    · exact (length_dropByte_le h).trans hafter
    · cases h; exact hafter

/-- A payload is at most as long as the frame it was in. -/
theorem SlipUnit.length_payload_le (u : SlipUnit) {chunk out : List Byte} (h : u.payload chunk = some out) :
    out.length ≤ chunk.length := by
  unfold SlipUnit.payload at h
  split at h
  · split at h
    · cases h; exact Nat.zero_le _
    · cases h
  · split at h
    · cases h
    · rename_i body hbody
      split at h
      · calc out.length ≤ body.dropLast.length := u.length_decodeBody_le h
          _ ≤ body.length := by rw [List.length_dropLast]; exact Nat.sub_le _ _
          _ ≤ chunk.length := u.length_dropLeader_le hbody
      · cases h

/-! ### SP: packets -/

theorem Acc.eq_empty_of_wf {cap : Nat} {a : Acc} (hw : a.Wf cap) (h : a.bytes = []) : a = ⟨[], 0⟩ := by
  obtain ⟨bytes, cursor⟩ := a
  obtain ⟨hlen, -⟩ := hw
  simp_all

/-- The bytes SP holds towards the six that a packet takes at least: those of a partial header; in a body at most five count,
because it takes one byte more at least to complete it. -/
def SpUnit.credit (u : SpUnit) : Nat :=
  match u.state with
  | .awaitingHeader => u.hacc.bytes.length
  | .awaitingBody => 5

/-- What the unit still has towards its next packet; after a fault there is none. -/
def SpRun.credit : SpRun → Nat
  | .running u _ => u.credit
  | .faulted _ _ _ => 0
  | .refused _ => 0

/-- The unit is a packet with a body that SP_BACC has room for. -/
def OutputUnit.IsPacket (x : OutputUnit) : Prop := ∃ (u : SpUnit) (body : List Byte), x = u.packet body ∧ body.length ≤ 65536

/-- A run out of `n` bytes: six at least for each packet, and each packet with a body of at most SP_BODY_CAP. -/
def SpRun.Within (n : Nat) (r : SpRun) : Prop :=
  6 * r.emitted.length + r.credit ≤ n ∧ ∀ x ∈ r.emitted, x.IsPacket

theorem SpUnit.credit_of_header {u : SpUnit} (h : u.state = .awaitingHeader) : u.credit = u.hacc.bytes.length := by
  simp [SpUnit.credit, h]

theorem SpUnit.credit_of_body {u : SpUnit} (h : u.state = .awaitingBody) : u.credit = 5 := by
  simp [SpUnit.credit, h]

theorem SpUnit.parseHeader_within (p : Params) (u : SpUnit) (hc : u.hacc.cursor = 6) (hl : u.hacc.bytes.length = 6)
    (hb : u.bacc = ⟨[], 0⟩) : (u.parseHeader p).Within 6 := by
  rw [SpUnit.parseHeader_eq p u hc hl hb]
  simp only
  repeat' split
  · simp [SpRun.Within, SpRun.emitted, SpRun.credit]
  · simp [SpRun.Within, SpRun.emitted, SpRun.credit]
  · exact ⟨Nat.le_refl 6, by simpa [SpRun.emitted] using ⟨_, [], rfl, by simp⟩⟩
  · simp [SpRun.Within, SpRun.emitted, SpRun.credit, SpUnit.credit]

theorem SpUnit.pushByte_within (p : Params) (b : Byte) {u : SpUnit} (hu : u.Ready) :
    (u.pushByte p b).Within (u.credit + 1) := by
  obtain ⟨hh, hb, ⟨hs, h5, hbe, -⟩ | hbody⟩ := hu
  · have hbacc : u.bacc = ⟨[], 0⟩ := Acc.eq_empty_of_wf hb hbe
    rw [SpUnit.pushByte_header p b u hh.1 hs h5, SpUnit.credit_of_header hs]
    split
    · rename_i h6
      rw [h6]
      exact SpUnit.parseHeader_within p { u with hacc := ⟨u.hacc.bytes ++ [b], 6⟩ } rfl (by simpa using h6) hbacc
    · simp [SpRun.Within, SpRun.emitted, SpRun.credit, SpUnit.credit, hs]
  · rw [SpUnit.pushByte_body p b u hb hbody, SpUnit.credit_of_body hbody.1]
    obtain ⟨hs, hhe, -, -, hcap, -⟩ := hbody
    simp only
    split
    · rename_i hfull
      have hlen : (u.bacc.bytes ++ [b]).length ≤ 65536 := by
        rw [List.length_append, List.length_singleton, ← hfull]
        exact hcap
      refine ⟨?_, by simpa [SpRun.emitted] using ⟨_, _, rfl, hlen⟩⟩
      simp [SpRun.emitted, SpRun.credit, SpUnit.credit, SpUnit.packetDone, hhe]
    · simp [SpRun.Within, SpRun.emitted, SpRun.credit, SpUnit.credit, hs]

theorem SpRun.Within.after {n k : Nat} {r : SpRun} (hr : r.Within n) {first : List OutputUnit}
    (hfirst : ∀ x ∈ first, x.IsPacket) (hk : 6 * first.length + n ≤ k) : (r.after first).Within k := by
  obtain ⟨hcount, hpackets⟩ := hr
  cases r
  case refused => exact ⟨Nat.zero_le _, nofun⟩
  case running | faulted =>
    refine ⟨?_, List.forall_mem_append.2 ⟨hfirst, hpackets⟩⟩
    simp only [SpRun.after, SpRun.emitted, SpRun.credit, List.length_append] at hcount ⊢
    omega

/-- SP_FEED's loop: six bytes at least for each packet, of those in hand and those fed. -/
theorem SpUnit.pushBytes_within (p : Params) (chunk : List Byte) {u : SpUnit} (hu : u.Ready) :
    (SpUnit.pushBytes p chunk u).Within (u.credit + chunk.length) := by
  induction chunk generalizing u with
  | nil => exact ⟨by simp [SpUnit.pushBytes, SpRun.emitted, SpRun.credit], nofun⟩
  | cons b rest ih =>
    have hready := SpUnit.pushByte_settled p b hu
    have hbyte := SpUnit.pushByte_within p b hu
    simp only [SpUnit.pushBytes]
    cases hv : u.pushByte p b with
    | running v packets =>
      rw [hv] at hready hbyte
      obtain ⟨hcount, hpackets⟩ := hbyte
      refine (ih hready).after hpackets ?_
      simp only [SpRun.emitted, SpRun.credit] at hcount
      rw [List.length_cons]
      omega
    | faulted v packets code =>
      rw [hv] at hbyte
      obtain ⟨hcount, hpackets⟩ := hbyte
      refine ⟨hcount.trans ?_, hpackets⟩
      rw [List.length_cons]
      omega
    | refused r => exact ⟨Nat.zero_le _, nofun⟩

theorem SpUnit.credit_le {u : SpUnit} (hu : u.Ready) : u.credit ≤ 5 := by
  obtain ⟨-, -, ⟨hs, h5, -⟩ | ⟨hs, -⟩⟩ := hu
  · rw [SpUnit.credit_of_header hs]; exact h5
  · rw [SpUnit.credit_of_body hs]

/-- A packet's BODY is PRES and the two lengths, and then the stream bytes it carries (30_encoding.md R55). -/
theorem SpUnit.packet_body (u : SpUnit) (body : List Byte) :
    (u.packet body).body = (u.packet body).body.take 5 ++ (headerBytes u.hdr ++ body) := by
  have hstream : (u.packet body).body.drop 5 = headerBytes u.hdr ++ body := by
    rw [← streamOf_packet u body]
    simp [streamOf, OutputUnit.record]
  rw [← hstream, List.take_append_drop]

theorem OutputUnit.IsPacket.length_body_le {x : OutputUnit} (h : x.IsPacket) : x.body.length ≤ 65547 := by
  obtain ⟨u, body, rfl, hlen⟩ := h
  rw [SpUnit.packet_body]
  simp only [List.length_append, List.length_take, headerBytes, List.length_cons, List.length_nil]
  omega

/-! ### How many records, and how long -/

section
variable {i : Instr} {s : State} {code : Code} {units : List OutputUnit} {rdata : Word}

/-- The bounds of 30_encoding.md R53 on the units of a well-formed command. -/
theorem Answers.units_length_le (h : Answers s i code units rdata) (hs : s.Inv) (hi : i.WellFormed) :
    units.length ≤ 13158 ∧ (∀ c, i = .spFeed c → units.length ≤ 10923)
      ∧ ((∀ c, i ≠ .ccFeed c ∧ i ≠ .spFeed c) → units.length ≤ 1) := by
  obtain ⟨⟨hw, hn, -⟩, hsp⟩ := hs
  have hchunk : i.chunk.length < 65536 := Instr.wellFormed_iff.1 hi
  cases h with
  | ccFrames chunk u frames hu =>
    obtain ⟨hw', hn'⟩ := CcUnit.timingStep_settled s.port.now { s.block.cc with lock := true } hw hn
    have hheld := CcUnit.length_lt_of_noWholeFrame hn'
    obtain ⟨hcount, -⟩ := CcUnit.pushBytes_emits hw' hn' hu
    simp only [Instr.chunk] at hchunk
    exact ⟨by omega, nofun, fun h => absurd rfl (h chunk).1⟩
  | spPackets chunk code hf packets hp =>
    have hready := SpUnit.ready_of_inv hsp hf
    have hcredit := SpUnit.credit_le hready
    obtain ⟨hcount, -⟩ := SpUnit.pushBytes_within s.port.params chunk hready
    rw [hp] at hcount
    simp only [Instr.chunk] at hchunk
    exact ⟨by omega, fun c hc => by omega, fun h => absurd rfl (h chunk).2⟩
  | _ => simp

/-- No BODY is as long as LEN can count: SP_BODY_CAP and MAX_CHUNK are far below 2^24 (30_encoding.md R54). -/
theorem Answers.length_body_lt (h : Answers s i code units rdata) (hs : s.Inv) (hi : i.WellFormed) :
    ∀ x ∈ units, x.body.length < 2 ^ 24 := by
  obtain ⟨⟨hw, hn, -⟩, hsp⟩ := hs
  have hchunk : i.chunk.length < 65536 := Instr.wellFormed_iff.1 hi
  cases h with
  | silent | read => nofun
  | ccFrames chunk u frames hu =>
    obtain ⟨hw', hn'⟩ := CcUnit.timingStep_settled s.port.now { s.block.cc with lock := true } hw hn
    obtain ⟨-, hfit⟩ := CcUnit.pushBytes_emits hw' hn' hu
    exact fun x hx => (hfit x hx).trans_lt (by decide)
  | slipFrame chunk =>
    have hlen := SlipUnit.length_frame_le { s.block.slip with lock := true } chunk
    simp only [Instr.chunk] at hchunk
    rw [List.forall_mem_singleton, OutputUnit.body]
    omega
  | slipPayload chunk out hout =>
    have hlen := s.block.slip.length_payload_le hout
    simp only [Instr.chunk] at hchunk
    rw [List.forall_mem_singleton, OutputUnit.body]
    omega
  | spPackets chunk code hf packets hp =>
    obtain ⟨-, hpackets⟩ := SpUnit.pushBytes_within s.port.params chunk (SpUnit.ready_of_inv hsp hf)
    rw [hp] at hpackets
    exact fun x hx => (hpackets x hx).length_body_le.trans_lt (by decide)
  | spResidue =>
    obtain ⟨⟨hhlen, hhcap⟩, ⟨hblen, hbcap⟩, -⟩ := hsp
    simp only [Config.spHdrLen, Config.spBodyCap] at hhcap hbcap
    rw [List.forall_mem_singleton, OutputUnit.body, List.length_append]
    omega

end

/-- What a command appended to the output is what it answered. -/
theorem Answered.records_eq {i : Instr} {s t : State} {records : List Record} (h : Answered i s t)
    (hout : t.port.output = s.port.output ++ records) :
    ∃ code units rdata, Answers s i code units rdata ∧ records = units.map OutputUnit.record := by
  obtain ⟨code, desync, units, rdata, hans, -, hsent⟩ := h
  exact ⟨code, units, rdata, hans, List.append_cancel_left (hout.symm.trans hsent)⟩

/-- Settles O17: a frame takes five bytes at least and a packet six, and any other command sends one unit at most. -/
theorem recordCountFitsNout : Obligations.RecordCountFitsNout := by
  intro i s t records hs hi h hout
  obtain ⟨code, units, rdata, hans, rfl⟩ := (exec_answered h).records_eq hout
  rw [List.length_map]
  exact hans.units_length_le hs hi

/-- Settles O18: LEN does not wrap. -/
theorem recordLengthIsExact : Obligations.RecordLengthIsExact := by
  intro i s t records hs hi h hout
  obtain ⟨code, units, rdata, hans, rfl⟩ := (exec_answered h).records_eq hout
  rw [List.forall_mem_map]
  intro x hx
  exact (BitVec.toNat_ofNat ..).trans (Nat.mod_eq_of_lt (hans.length_body_lt hs hi x hx))

end Sys2Proof.Machine
end

section
/-! A whole packet fed to an SP that holds nothing (43_spacepacket.md R104 to R110): the header and the body together leave SP as
it was, with SP_HDR the new header, and give one record. -/

namespace Sys2Proof.Machine

/-- SP awaits a header and holds no byte of one. -/
structure SpUnit.Idle (u : SpUnit) : Prop where
  state : u.state = .awaitingHeader
  hacc : u.hacc = ⟨[], 0⟩
  bacc : u.bacc = ⟨[], 0⟩
  hdrValid : u.hdrValid = false
  dl : u.dl = 0

/-- Without a fault SP between commands is in one of two cases, and AwaitingHeader with no byte of it is idle (10_state.md R30). -/
theorem SpUnit.idle_of_inv {u : SpUnit} (hu : u.Inv) (hf : u.fault = false) (hs : u.state = .awaitingHeader)
    (hh : u.hacc.bytes = []) : ({ u with lock := true } : SpUnit).Idle := by
  obtain ⟨hhw, hbw, hok, -, -⟩ := hu
  rcases (hok hf).2 with ⟨-, -, hbe, hv, hd⟩ | ⟨hbody, -⟩
  · exact ⟨hs, Acc.eq_empty_of_wf hhw hh, Acc.eq_empty_of_wf hbw hbe, hv, hd⟩
  · rw [hs] at hbody
    cases hbody

/-- A completed packet leaves an idle unit idle, but for the header it kept (43_spacepacket.md R109). -/
theorem SpUnit.Idle.packetDone_parsed {u : SpUnit} (hu : u.Idle) (p : Params) (h : Header) :
    (u.parsed p h).packetDone = { u with hdr := h } := by
  obtain ⟨hs, hh, hb, hv, hd⟩ := hu
  simp [SpUnit.packetDone, SpUnit.parsed, hs, hh, hb, hv, hd]

/-- SP_FEED's loop over the body that the parsed header declares, where it declares any. -/
theorem SpUnit.Idle.pushBytes_wholeBody {u : SpUnit} (hu : u.Idle) (p : Params) (h : Header) {body : List Byte}
    (hlen : body.length = (spDlFn p h).toNat) (hsec : u.secLen ≤ body.length) (hcap : body.length ≤ 65536)
    (hpos : 0 < body.length) :
    SpUnit.pushBytes p body { u.parsed p h with state := .awaitingBody }
      = .running { u with hdr := h } [({ u with hdr := h } : SpUnit).packet body] := by
  have hbacc : (u.parsed p h).bacc = ⟨[], 0⟩ := hu.bacc
  have hdl : (u.parsed p h).dl.toNat = body.length := hlen.symm
  have hin : SpUnit.InBody { u.parsed p h with state := .awaitingBody } := by
    refine ⟨rfl, rfl, rfl, ?_, ?_, ?_⟩
    · exact hsec.trans_eq hdl.symm
    · exact hdl.trans_le hcap
    · simp only [hbacc, hdl]; exact hpos
  rw [SpUnit.pushBytes_body_complete p body _ (by simp only [hbacc]; exact Acc.wf_empty _) hin
    (by simp only [hbacc, hdl]; simp)]
  simp only [hbacc, hdl, List.nil_append, List.drop_length, List.take_length]
  rw [← hu.packetDone_parsed p h]
  rfl

/-- SP_FEED's loop over a whole packet. -/
theorem SpUnit.Idle.pushBytes_wholePacket {u : SpUnit} (hu : u.Idle) (p : Params) (h : Header) {body : List Byte}
    (hlen : body.length = (spDlFn p h).toNat) (hsec : u.secLen ≤ body.length) (hcap : body.length ≤ 65536) :
    SpUnit.pushBytes p (headerBytes h ++ body) u
      = .running { u with hdr := h } [({ u with hdr := h } : SpUnit).packet body] := by
  have hcut : (u.hacc.bytes ++ (headerBytes h ++ body)).take 6 = headerBytes h
      ∧ (u.hacc.bytes ++ (headerBytes h ++ body)).drop 6 = body := by
    rw [hu.hacc]
    exact ⟨rfl, rfl⟩
  have hhdr : headerOfBytes (headerBytes h) = h := rfl
  rw [SpUnit.pushBytes_header_complete p _ u (by rw [hu.hacc]; rfl) hu.state hu.bacc (by simp [hu.hacc])
    (by simp [hu.hacc, headerBytes])]
  simp only [hcut, hhdr, ← hlen]
  rw [if_neg (show ¬body.length < u.tcLen.toNat + u.ancLen.toNat from Nat.not_lt.2 hsec),
    if_neg (show ¬Config.spBodyCap < body.length from Nat.not_lt.2 hcap)]
  split
  · rename_i hzero
    obtain rfl := List.eq_nil_of_length_eq_zero hzero
    rw [SpUnit.pushBytes, hu.packetDone_parsed]
    rfl
  · rename_i hpos
    exact hu.pushBytes_wholeBody p h hlen hsec hcap (Nat.pos_of_ne_zero hpos)

/-! ### The record of a packet -/

/-- PRES from the two configured lengths (30_encoding.md R55). -/
theorem presByte_fieldIfPresent (tcLen ancLen : Half) (tc anc : List Byte) :
    presByte (fieldIfPresent tcLen tc) (fieldIfPresent ancLen anc)
      = (if tcLen = 0 then 0 else 0x03) ||| (if ancLen = 0 then 0 else 0x05) := by
  unfold fieldIfPresent
  split <;> split <;> simp only [presByte, Option.isSome] <;> decide

/-- A field cut to its configured length has that length in the record. -/
theorem be16_of_length {len : Half} {field : List Byte} (h : field.length = len.toNat) :
    be16 field.length = [len.extractLsb' 8 8, len.extractLsb' 0 8] := by
  rw [h, be16, BitVec.ofNat_toNat, BitVec.setWidth_eq]
  rfl

/-- PRES, TCLEN and ANCLEN, which stand before the header in an SpPacket's BODY (30_encoding.md R55). -/
def SpUnit.packetLead (u : SpUnit) : List Byte :=
  [(if u.tcLen = 0 then 0 else 0x03) ||| (if u.ancLen = 0 then 0 else 0x05), u.tcLen.extractLsb' 8 8,
    u.tcLen.extractLsb' 0 8, u.ancLen.extractLsb' 8 8, u.ancLen.extractLsb' 0 8]

/-- A body that holds its secondary header whole has both fields at their configured lengths. -/
theorem SpUnit.take_packet_body (u : SpUnit) {body : List Byte} (hsec : u.secLen ≤ body.length) :
    (u.packet body).body.take 5 = u.packetLead := by
  rw [SpUnit.secLen] at hsec
  have htc : (body.take u.tcLen.toNat).length = u.tcLen.toNat := by
    rw [List.length_take]
    omega
  have hanc : ((body.drop u.tcLen.toNat).take u.ancLen.toNat).length = u.ancLen.toNat := by
    rw [List.length_take, List.length_drop]
    omega
  show presByte (fieldIfPresent u.tcLen _) (fieldIfPresent u.ancLen _)
      :: be16 ((fieldIfPresent u.tcLen _).getD []).length ++ be16 ((fieldIfPresent u.ancLen _).getD []).length = _
  rw [presByte_fieldIfPresent, fieldIfPresent_take_getD, fieldIfPresent_take_getD, be16_of_length htc,
    be16_of_length hanc]
  rfl

theorem SpUnit.record_packet (u : SpUnit) {body : List Byte} (hsec : u.secLen ≤ body.length) :
    (u.packet body).record = bytesRecord 0x04 (u.packetLead ++ (headerBytes u.hdr ++ body)) := by
  rw [← u.take_packet_body hsec, ← SpUnit.packet_body]
  rfl

/-- SP_FEED that no fault stops, seen from outside. -/
theorem execSpFeed_of_running {chunk : List Byte} {s : State} {u : SpUnit} {packets : List OutputUnit}
    (hf : s.block.sp.fault = false)
    (hu : SpUnit.pushBytes s.port.params chunk { s.block.sp with lock := true } = .running u packets) :
    execSpFeed chunk s
      = .next (s.ended { s.block with sp := u } (respWord 0x00 0x00 packets.length) 0 (packets.map OutputUnit.record)) := by
  rw [execSpFeed_eq hf, hu]
  simp only
  rw [State.finish_eq_ended _ _ _ _ _ _ (by rfl)]
  rfl

/-- Settles O42: SP is idle, so its loop takes the packet whole. -/
theorem spFeedEmitsAWholePacket : Obligations.SpFeedEmitsAWholePacket := by
  intro s h body hs hf hstate hheld hlen hsec hcap
  obtain ⟨-, hsp⟩ := hs
  have hrun := (SpUnit.idle_of_inv hsp hf hstate hheld).pushBytes_wholePacket s.port.params h hlen hsec hcap
  have hrecord := SpUnit.record_packet { s.block.sp with hdr := h, lock := true } hsec
  have hresp : respWord 0x00 0x00 1 = 0x00000001 := by decide
  refine (execSpFeed_of_running hf hrun).trans (congrArg Host.Outcome.next ?_)
  rw [List.map_singleton, List.length_singleton, hresp]
  exact congrArg (s.ended _ 0x00000001 0) (congrArg (fun record => [record]) hrecord)

end Sys2Proof.Machine
end

section
/-! No step is refused (30_encoding.md R56). -/

namespace Sys2Proof.Machine

/-- Settles O4, by `step_completes`: the invariant leaves CC_ACC room for the next byte and keeps SP inside a stream, so neither
loop is refused (40_accumulator.md R61 to R63), and no other command uses an accumulator primitive that can refuse. -/
theorem stepAlwaysAnswersNext : Obligations.StepAlwaysAnswersNext := fun _ hs => step_completes hs

end Sys2Proof.Machine
end

section
/-! CC_DISCARD and CC_FEED seen from outside, and CC_FEED against the chunk-level loop (41_cctalk.md R67 to R80). The loop over
bytes and the chunk-level loop agree because a buffer without a whole frame that a byte completes is exactly one frame; that
bytes are conserved and that chunk boundaries do not matter are then facts about `ccFramesOf` alone. -/

namespace Sys2Proof.Machine

/-! ### CC_DISCARD -/

/-- Settles O32: CC_DISCARD ends with CC_ACC cleared and nothing sent. -/
theorem ccDiscardEmptiesTheBuffer : Obligations.CcDiscardEmptiesTheBuffer := fun s =>
  congrArg Host.Outcome.next
    (State.finish_eq_ended s .ok false [] 0 { s.block with cc := { s.block.cc with acc := ⟨[], 0⟩ } } rfl)

/-! ### The chunk-level loop -/

/-- The length that the second byte of a buffer declares for its first frame (41_cctalk.md R74). -/
abbrev frameLength (buffer : List Byte) : Nat := (buffer.getD 1 0).toNat + 5

theorem CcUnit.noWholeFrame_iff {u : CcUnit} : u.NoWholeFrame ↔ ¬holdsFrame u.acc.bytes := by
  simp only [CcUnit.NoWholeFrame, holdsFrame]
  omega

theorem CcUnit.not_holdsFrame_of_inv {u : CcUnit} (hu : u.Inv) : ¬holdsFrame u.acc.bytes := by
  obtain ⟨-, hn, -⟩ := hu
  exact CcUnit.noWholeFrame_iff.1 hn

theorem ccFrames_of_not_holdsFrame {buffer : List Byte} (h : ¬holdsFrame buffer) (fuel : Nat) :
    ccFrames fuel buffer = ([], buffer) := by
  cases fuel with
  | zero => rfl
  | succ fuel => exact if_neg h

theorem ccFrames_succ_of_holdsFrame {buffer : List Byte} (h : holdsFrame buffer) (fuel : Nat) :
    ccFrames (fuel + 1) buffer
      = (buffer.take (frameLength buffer) :: (ccFrames fuel (buffer.drop (frameLength buffer))).1,
          (ccFrames fuel (buffer.drop (frameLength buffer))).2) :=
  if_pos h

theorem length_drop_frameLength_lt {buffer : List Byte} (h : holdsFrame buffer) :
    (buffer.drop (frameLength buffer)).length < buffer.length := by
  obtain ⟨htwo, -⟩ := h
  simp only [List.length_drop, frameLength]
  omega

/-- Induction along the rounds of the loop: it stops, or takes a frame and goes on with the bytes after it. -/
theorem wholeFrames_induction {P : List Byte → Prop} (stop : ∀ buffer, ¬holdsFrame buffer → P buffer)
    (round : ∀ buffer, holdsFrame buffer → P (buffer.drop (frameLength buffer)) → P buffer) (buffer : List Byte) :
    P buffer := by
  induction hn : buffer.length using Nat.strong_induction_on generalizing buffer with
  | _ n ih =>
    by_cases h : holdsFrame buffer
    · exact round buffer h (ih _ (hn ▸ length_drop_frameLength_lt h) _ rfl)
    · exact stop buffer h

/-- As many rounds as bytes are enough: a round takes at least five bytes, so more rounds change nothing. -/
theorem ccFrames_eq_of_le {m n : Nat} {buffer : List Byte} (hm : buffer.length ≤ m) (hn : buffer.length ≤ n) :
    ccFrames m buffer = ccFrames n buffer := by
  induction buffer using wholeFrames_induction generalizing m n with
  | stop buffer h => rw [ccFrames_of_not_holdsFrame h, ccFrames_of_not_holdsFrame h]
  | round buffer h ih =>
    have hdrop := length_drop_frameLength_lt h
    obtain ⟨m, rfl⟩ := Nat.exists_eq_succ_of_ne_zero (show m ≠ 0 by omega)
    obtain ⟨n, rfl⟩ := Nat.exists_eq_succ_of_ne_zero (show n ≠ 0 by omega)
    rw [ccFrames_succ_of_holdsFrame h, ccFrames_succ_of_holdsFrame h, ih (m := m) (n := n) (by omega) (by omega)]

theorem ccFramesOf_of_not_holdsFrame {buffer : List Byte} (h : ¬holdsFrame buffer) : ccFramesOf buffer = ([], buffer) :=
  ccFrames_of_not_holdsFrame h _

/-- One round of the loop (41_cctalk.md R73). -/
theorem ccFramesOf_of_holdsFrame {buffer : List Byte} (h : holdsFrame buffer) :
    ccFramesOf buffer
      = (buffer.take (frameLength buffer) :: (ccFramesOf (buffer.drop (frameLength buffer))).1,
          (ccFramesOf (buffer.drop (frameLength buffer))).2) := by
  have hdrop : ccFrames buffer.length (buffer.drop (frameLength buffer)) = ccFramesOf (buffer.drop (frameLength buffer)) :=
    ccFrames_eq_of_le (length_drop_frameLength_lt h).le le_rfl
  rw [← hdrop, ← ccFrames_succ_of_holdsFrame h]
  exact ccFrames_eq_of_le le_rfl (Nat.le_succ _)

/-! ### What the loop keeps -/

theorem frameLength_append {buffer : List Byte} (h : 2 ≤ buffer.length) (more : List Byte) :
    frameLength (buffer ++ more) = frameLength buffer := by
  simp [frameLength, List.getD_eq_getElem?_getD, List.getElem?_append_left (show 1 < buffer.length by omega)]

theorem holdsFrame_append {buffer : List Byte} (h : holdsFrame buffer) (more : List Byte) : holdsFrame (buffer ++ more) := by
  have hlen : buffer.length ≤ (buffer ++ more).length := by simp
  exact ⟨h.1.trans hlen, (frameLength_append h.1 more).trans_le (h.2.trans hlen)⟩

/-- The frames and the remainder are the buffer (10_state.md R31). -/
theorem ccFramesOf_flatten (buffer : List Byte) : (ccFramesOf buffer).1.flatten ++ (ccFramesOf buffer).2 = buffer := by
  induction buffer using wholeFrames_induction with
  | stop buffer h => simp [ccFramesOf_of_not_holdsFrame h]
  | round buffer h ih =>
    rw [ccFramesOf_of_holdsFrame h, List.flatten_cons, List.append_assoc, ih, List.take_append_drop]

/-- Every frame is as long as its own second byte declares (41_cctalk.md R74). -/
theorem length_of_mem_ccFramesOf {buffer : List Byte} : ∀ f ∈ (ccFramesOf buffer).1, f.length = frameLength f := by
  induction buffer using wholeFrames_induction with
  | stop buffer h => simp [ccFramesOf_of_not_holdsFrame h]
  | round buffer h ih =>
    rw [ccFramesOf_of_holdsFrame h]
    have hlen : (buffer.take (frameLength buffer)).length = frameLength buffer := List.length_take_of_le h.2
    have htwo : 2 ≤ (buffer.take (frameLength buffer)).length := by
      rw [hlen, frameLength]
      omega
    have hsecond : frameLength (buffer.take (frameLength buffer)) = frameLength buffer := by
      rw [← frameLength_append htwo (buffer.drop (frameLength buffer)), List.take_append_drop]
    exact List.forall_mem_cons.2 ⟨hlen.trans hsecond.symm, ih⟩

/-- The loop over a buffer and more bytes is the loop over the buffer, and then over its remainder and those bytes. -/
theorem ccFramesOf_append (buffer more : List Byte) :
    ccFramesOf (buffer ++ more)
      = ((ccFramesOf buffer).1 ++ (ccFramesOf ((ccFramesOf buffer).2 ++ more)).1,
          (ccFramesOf ((ccFramesOf buffer).2 ++ more)).2) := by
  induction buffer using wholeFrames_induction with
  | stop buffer h => simp [ccFramesOf_of_not_holdsFrame h]
  | round buffer h ih =>
    rw [ccFramesOf_of_holdsFrame (holdsFrame_append h more), ccFramesOf_of_holdsFrame h, frameLength_append h.1,
      List.take_append_of_le_length h.2, List.drop_append_of_le_length h.2, ih]
    rfl

/-! ### The loop over bytes is the chunk-level loop -/

/-- A byte that completes a frame completes it exactly, so nothing is left (41_cctalk.md R75). -/
theorem ccFramesOf_completed {buffer : List Byte} {b : Byte} (hbefore : ¬holdsFrame buffer)
    (h : holdsFrame (buffer ++ [b])) : ccFramesOf (buffer ++ [b]) = ([buffer ++ [b]], []) := by
  have hexact : frameLength (buffer ++ [b]) = (buffer ++ [b]).length := by
    obtain ⟨-, hfit⟩ := h
    refine Nat.le_antisymm hfit ?_
    simp only [holdsFrame, List.length_append, List.length_singleton] at hbefore hfit ⊢
    by_cases htwo : 2 ≤ buffer.length
    · rw [frameLength_append htwo, frameLength]
      omega
    · omega
  rw [ccFramesOf_of_holdsFrame h, hexact, List.take_length, List.drop_length,
    ccFramesOf_of_not_holdsFrame (by simp [holdsFrame])]

/-- One byte of CC_FEED is the loop on what CC_ACC holds and that byte. -/
theorem CcUnit.pushByte_eq_ccFramesOf (b : Byte) {u : CcUnit} (hw : u.acc.Wf Config.ccBufCap) (hs : u.NoWholeFrame) :
    u.pushByte b
      = .ok ({ u with
                acc := ⟨(ccFramesOf (u.acc.bytes ++ [b])).2, (ccFramesOf (u.acc.bytes ++ [b])).2.length⟩ },
              (ccFramesOf (u.acc.bytes ++ [b])).1.map .ccFrame) := by
  rw [CcUnit.pushByte_eq b u hw hs]
  split
  · rename_i h
    rw [ccFramesOf_completed (CcUnit.noWholeFrame_iff.1 hs) h]
    rfl
  · rename_i h
    rw [ccFramesOf_of_not_holdsFrame h, List.length_append]
    rfl

/-- CC_FEED's loop is the chunk-level loop on what CC_ACC holds and then the chunk (41_cctalk.md R73). -/
theorem CcUnit.pushBytes_eq_ccFramesOf (chunk : List Byte) {u : CcUnit} (hw : u.acc.Wf Config.ccBufCap)
    (hs : u.NoWholeFrame) :
    CcUnit.pushBytes chunk u
      = .ok ({ u with
                acc := ⟨(ccFramesOf (u.acc.bytes ++ chunk)).2, (ccFramesOf (u.acc.bytes ++ chunk)).2.length⟩ },
              (ccFramesOf (u.acc.bytes ++ chunk)).1.map .ccFrame) := by
  induction chunk generalizing u with
  | nil =>
    rw [List.append_nil, ccFramesOf_of_not_holdsFrame (CcUnit.noWholeFrame_iff.1 hs), ← hw.1]
    rfl
  | cons b rest ih =>
    have hbyte := CcUnit.pushByte_eq_ccFramesOf b hw hs
    obtain ⟨hw', hs', -⟩ := CcUnit.pushByte_settled hw hs hbyte
    have hsplit : u.acc.bytes ++ b :: rest = (u.acc.bytes ++ [b]) ++ rest := by simp
    rw [hsplit, ccFramesOf_append]
    simp only [CcUnit.pushBytes, hbyte, ih hw' hs', List.map_append]

/-! ### CC_FEED, seen from outside -/

/-- The buffer the chunk-level loop runs on: what the timeout check leaves of CC_ACC, and then the chunk. -/
def CcUnit.buffered (now : Word) (chunk : List Byte) (u : CcUnit) : List Byte :=
  (if u.discards now then [] else u.acc.bytes) ++ chunk

/-- The frames CC_FEED emits. -/
def CcUnit.framesFed (now : Word) (chunk : List Byte) (u : CcUnit) : List (List Byte) :=
  (ccFramesOf (u.buffered now chunk)).1

/-- The unit as CC_FEED leaves it. -/
def CcUnit.fed (now : Word) (chunk : List Byte) (u : CcUnit) : CcUnit :=
  { u with
    acc := ⟨(ccFramesOf (u.buffered now chunk)).2, (ccFramesOf (u.buffered now chunk)).2.length⟩
    lastTime := if u.maxDelay = 0 then u.lastTime else now
    lastValid := u.lastValid || decide (u.maxDelay ≠ 0)
    desyncCount := if u.desync now then u.desyncCount + 1 else u.desyncCount
    lock := true }

/-- The timeout check discards exactly when the condition of R70 holds. -/
theorem CcUnit.discards_eq_decide (u : CcUnit) (now : Word) :
    u.discards now
      = decide (u.maxDelay ≠ 0 ∧ u.lastValid = true ∧ u.maxDelay.toNat < (now - u.lastTime).toNat) := by
  rw [Bool.eq_iff_iff]
  simp only [CcUnit.discards, Bool.and_eq_true, decide_eq_true_eq, and_assoc]
  exact Iff.rfl

/-- The timing step, element by element, whether timing is enabled or not (41_cctalk.md R70 to R72). -/
theorem CcUnit.timingStep_eq (now : Word) (u : CcUnit) :
    u.timingStep now
      = { u with
          acc := if u.discards now then ⟨[], 0⟩ else u.acc
          lastTime := if u.maxDelay = 0 then u.lastTime else now
          lastValid := u.lastValid || decide (u.maxDelay ≠ 0)
          desyncCount := if u.desync now then u.desyncCount + 1 else u.desyncCount } := by
  by_cases h : u.maxDelay = 0
  · obtain ⟨acc, maxDelay, lastTime, lastValid, desyncCount, lock⟩ := u
    cases h
    simp [CcUnit.timingStep, CcUnit.desync, CcUnit.discards]
  · rw [CcUnit.timingStep, if_neg h, if_neg h, decide_eq_true h, Bool.or_true]
    rfl

/-- CC_FEED from a unit between commands: it completes, with the frames of the loop and the unit as the rules leave it. -/
theorem exec_ccFeed_eq_ended {s : State} (chunk : List Byte) (hs : s.block.cc.Inv) :
    exec (.ccFeed chunk) s
      = .next (s.ended { s.block with cc := s.block.cc.fed s.port.now chunk }
          (respWord 0x00 (if s.block.cc.desync s.port.now then 0x01 else 0x00)
            (s.block.cc.framesFed s.port.now chunk).length)
          0 ((s.block.cc.framesFed s.port.now chunk).map (bytesRecord 0x01))) := by
  obtain ⟨hw, hn, -⟩ := hs
  obtain ⟨hw', hn'⟩ := CcUnit.timingStep_settled s.port.now { s.block.cc with lock := true } hw hn
  have hbytes : (({ s.block.cc with lock := true } : CcUnit).timingStep s.port.now).acc.bytes
      = if s.block.cc.discards s.port.now then [] else s.block.cc.acc.bytes := by
    rw [CcUnit.timingStep_eq]
    exact apply_ite Acc.bytes _ _ _
  have hflag (d : Bool) : ((bit d).setWidth 8 : Byte) = if d then 0x01 else 0x00 := by cases d <;> rfl
  show execCcFeed chunk s = _
  simp only [execCcFeed, CcUnit.pushBytes_eq_ccFramesOf chunk hw' hn', hbytes]
  rw [State.finish_eq_ended _ _ _ _ _ _ (by rfl), hflag, List.length_map, List.map_map, CcUnit.timingStep_eq]
  rfl

/-- Settles O29: `exec_ccFeed_eq_ended`, with R70's condition and DESYNC written out. -/
theorem ccFeedEqualsChunkLevelExtraction : Obligations.CcFeedEqualsChunkLevelExtraction := by
  intro s chunk ⟨hcc, _⟩ u lost desync r
  have hlost : lost = u.discards s.port.now := (u.discards_eq_decide s.port.now).symm
  have hdesync : desync = u.desync s.port.now := by
    obtain ⟨hw, -⟩ := hcc
    rw [Bool.eq_iff_iff, CcUnit.desync_iff hw]
    simp only [desync, lost, Bool.and_eq_true, decide_eq_true_eq, and_assoc]
    exact Iff.rfl
  have hr : r = ccFramesOf (u.buffered s.port.now chunk) := by
    show ccFramesOf ((if lost then [] else u.acc.bytes) ++ chunk) = _
    rw [hlost]
    rfl
  rw [hdesync, hr]
  exact exec_ccFeed_eq_ended chunk hcc

/-- Settles O30: the frames and the remainder of the loop are its buffer. -/
theorem ccFeedConservesBytes : Obligations.CcFeedConservesBytes := fun s chunk ⟨hcc, _⟩ =>
  ⟨_, s.block.cc.framesFed s.port.now chunk, exec_ccFeed_eq_ended chunk hcc, rfl, length_of_mem_ccFramesOf,
    ccFramesOf_flatten (s.block.cc.buffered s.port.now chunk)⟩

/-! ### Chunk boundaries -/

/-- A well-formed accumulator is fixed by its contents. -/
theorem Acc.eq_of_bytes_eq {cap : Nat} {a a' : Acc} (hw : a.Wf cap) (hw' : a'.Wf cap) (h : a.bytes = a'.bytes) :
    a = a' := by
  obtain ⟨hcount, -⟩ := hw
  obtain ⟨hcount', -⟩ := hw'
  calc
    a = ⟨a.bytes, a.bytes.length⟩ := by rw [← hcount]
    _ = a' := by rw [h, ← hcount']

/-- The state in which the next command samples TIME as `now`. -/
def State.sampling (now : Word) (s : State) : State := { s with port := { s.port with now := now } }

/-- A completed run of CC_FEEDs begins with one whose check does not discard, and which leaves the rest to run. -/
theorem ccFeedAll_cons {now : Word} {chunk : List Byte} {rest : List (Word × List Byte)} {s t : State} :
    ccFeedAll ((now, chunk) :: rest) s = some t
      ↔ s.block.cc.discards now = false
        ∧ ∃ s', exec (.ccFeed chunk) (s.sampling now) = .next s' ∧ ccFeedAll rest s' = some t := by
  show (if s.block.cc.discards now then none
    else match exec (.ccFeed chunk) (s.sampling now) with
      | .next t => ccFeedAll rest t
      | .fault _ => none
      | .refused _ => none) = some t ↔ _
  cases s.block.cc.discards now <;> cases exec (.ccFeed chunk) (s.sampling now) <;> simp

/-- What a CC_FEED whose check does not discard adds to the output, and what it leaves of the unit. -/
theorem exec_ccFeed_of_not_discards {now : Word} {chunk : List Byte} {s s' : State} (hs : s.block.cc.Inv)
    (hd : s.block.cc.discards now = false) (h : exec (.ccFeed chunk) (s.sampling now) = .next s') :
    s'.port.output = s.port.output ++ (ccFramesOf (s.block.cc.acc.bytes ++ chunk)).1.map (bytesRecord 0x01)
      ∧ s'.block.cc.acc.bytes = (ccFramesOf (s.block.cc.acc.bytes ++ chunk)).2
      ∧ s'.block.cc.maxDelay = s.block.cc.maxDelay
      ∧ s'.block.cc.lastTime = if s.block.cc.maxDelay = 0 then s.block.cc.lastTime else now := by
  have hbuffer : s.block.cc.buffered now chunk = s.block.cc.acc.bytes ++ chunk := by simp [CcUnit.buffered, hd]
  cases (exec_ccFeed_eq_ended (s := s.sampling now) chunk hs).symm.trans h
  rw [← hbuffer]
  exact ⟨rfl, rfl, rfl, rfl⟩

/-- A run of CC_FEEDs without a discard is the chunk-level loop on what CC_ACC held and then the whole stream. -/
theorem ccFeedAll_eq_ccFramesOf {xs : List (Word × List Byte)} {s t : State} (hs : s.Inv) (h : ccFeedAll xs s = some t) :
    t.port.output
        = s.port.output
          ++ (ccFramesOf (s.block.cc.acc.bytes ++ (xs.map Prod.snd).flatten)).1.map (bytesRecord 0x01)
      ∧ t.block.cc.acc.bytes = (ccFramesOf (s.block.cc.acc.bytes ++ (xs.map Prod.snd).flatten)).2
      ∧ t.Inv := by
  induction xs generalizing s with
  | nil =>
    cases h
    have hnone := ccFramesOf_of_not_holdsFrame (CcUnit.not_holdsFrame_of_inv hs.1)
    refine ⟨?_, ?_, hs⟩ <;> simp [hnone]
  | cons x rest ih =>
    obtain ⟨hd, s', hfeed, hrest⟩ := ccFeedAll_cons.1 h
    have hs' : s'.Inv := exec_inv (s := s.sampling x.1) hs hfeed
    obtain ⟨hout, hacc, -⟩ := exec_ccFeed_of_not_discards hs.1 hd hfeed
    obtain ⟨hout', hacc', ht⟩ := ih hs' hrest
    rw [List.map_cons, List.flatten_cons, ← List.append_assoc, ccFramesOf_append, List.map_append]
    exact ⟨by rw [hout', hout, hacc, List.append_assoc], by rw [hacc', hacc], ht⟩

/-- No timeout check can discard at the samples given: timing is off, or every gap is within CC_MAXDELAY, where the gap before
the first sample counts only from a sample already held (41_cctalk.md R70, R79). -/
def CcUnit.InTime (stamps : List Word) (u : CcUnit) : Prop :=
  u.maxDelay = 0 ∨ ∃ first : Word, (u.lastValid = true → first = u.lastTime) ∧ gapsWithin u.maxDelay first stamps

theorem CcUnit.InTime.discards_eq_false {now : Word} {stamps : List Word} {u : CcUnit} (h : u.InTime (now :: stamps)) :
    u.discards now = false := by
  rw [CcUnit.discards_eq_decide, decide_eq_false_iff_not]
  rintro ⟨hdelay, hvalid, hgap⟩
  rcases h with hoff | ⟨first, hfirst, hle, -⟩
  · exact hdelay hoff
  · rw [hfirst hvalid] at hle
    omega

/-- After a sample in time, the later ones are in time from it. -/
theorem CcUnit.InTime.next {now : Word} {stamps : List Word} {u v : CcUnit} (h : u.InTime (now :: stamps))
    (hdelay : v.maxDelay = u.maxDelay) (htime : v.lastTime = if u.maxDelay = 0 then u.lastTime else now) :
    v.InTime stamps := by
  by_cases hoff : u.maxDelay = 0
  · exact .inl (hdelay.trans hoff)
  · rcases h with hoff' | ⟨-, -, -, hlater⟩
    · exact absurd hoff' hoff
    · rw [if_neg hoff] at htime
      exact .inr ⟨now, fun _ => htime.symm, hdelay ▸ hlater⟩

/-- CC_FEEDs whose samples are in time all complete, and no check discards. -/
theorem ccFeedAll_completes {xs : List (Word × List Byte)} {s : State} (hs : s.Inv)
    (hin : s.block.cc.InTime (xs.map Prod.fst)) : ∃ t, ccFeedAll xs s = some t := by
  induction xs generalizing s with
  | nil => exact ⟨s, rfl⟩
  | cons x rest ih =>
    have hd := hin.discards_eq_false
    obtain ⟨s', hfeed⟩ := exec_completes (s := s.sampling x.1) (.ccFeed x.2) hs
    obtain ⟨-, -, hdelay, htime⟩ := exec_ccFeed_of_not_discards hs.1 hd hfeed
    obtain ⟨t, ht⟩ := ih (exec_inv (s := s.sampling x.1) hs hfeed) (hin.next hdelay htime)
    exact ⟨t, ccFeedAll_cons.2 ⟨hd, s', hfeed, ht⟩⟩

/-- Settles O31: both runs are the chunk-level loop on the same bytes, and a well-formed CC_ACC is fixed by its contents. -/
theorem ccChunkBoundaryIndependence : Obligations.CcChunkBoundaryIndependence := by
  refine ⟨fun s t t' xs ys hs hsame hxs hys => ?_, fun s xs hs hin => ccFeedAll_completes hs hin⟩
  obtain ⟨hout, hacc, ⟨hw, -⟩, -⟩ := ccFeedAll_eq_ccFramesOf hs hxs
  obtain ⟨hout', hacc', ⟨hw', -⟩, -⟩ := ccFeedAll_eq_ccFramesOf hs hys
  have hbytes : t.block.cc.acc.bytes = t'.block.cc.acc.bytes := by rw [hacc, hacc', hsame]
  exact ⟨by rw [hout, hout', hsame], Acc.eq_of_bytes_eq hw hw' hbytes⟩

end Sys2Proof.Machine
end

section
/-! SLIP_ENC and SLIP_DEC (42_slip.md R82 to R100). SLIP_DEC is split at the frame's shape: a chunk that is not empty has a
payload exactly when it is leader, body, END, and the payload is then what the body decodes to. The decoder reads the encoding of
a byte as one token, and every token it reads is the encoding of a byte: that gives the round trip, its converse, and that a
malformed token is found behind any payload. -/

namespace Sys2Proof.Machine

section
variable (u : SlipUnit)

/-! ### The encoder: one byte, and the length of a frame -/

/-- The bytes that SLIP_ENC escapes: those for which one of the three tests of 42_slip.md R87 holds. -/
def SlipUnit.escaped (b : Byte) : Bool :=
  (u.startEscaped && b == u.startByte) || b == u.endByte || b == u.escByte

theorem SlipUnit.length_escape (b : Byte) : (u.escape b).length = 1 + (u.escaped b).toNat := by
  rcases u.escape_cases b with ⟨hse, hb, h⟩ | ⟨-, hb, -, h⟩ | ⟨-, hb, -, -, h⟩ | ⟨hesc, hend, hstart, h⟩ <;> rw [h]
  · simp [SlipUnit.escaped, hse, hb]
  · simp [SlipUnit.escaped, hb]
  · simp [SlipUnit.escaped, hb]
  · have hplain : u.escaped b = false := by
      simpa [SlipUnit.escaped, hend, hesc] using hstart
    simp [hplain]

theorem SlipUnit.length_flatMap_escape (chunk : List Byte) :
    (chunk.flatMap u.escape).length = chunk.length + chunk.countP u.escaped := by
  induction chunk with
  | nil => rfl
  | cons b rest ih =>
    rw [List.flatMap_cons, List.length_append, ih, u.length_escape, List.length_cons, List.countP_cons]
    cases u.escaped b <;> simp <;> omega

theorem SlipUnit.length_leader : u.leader.length = u.quirk.toNat + u.startEn.toNat := by
  unfold SlipUnit.leader
  cases u.quirk <;> cases u.startEn <;> rfl

theorem SlipUnit.length_frame (chunk : List Byte) :
    (u.frame chunk).length = u.quirk.toNat + u.startEn.toNat + chunk.length + chunk.countP u.escaped + 1 := by
  rw [SlipUnit.frame, List.length_append, List.length_append, u.length_leader, u.length_flatMap_escape, List.length_singleton,
    ← Nat.add_assoc]

theorem SlipUnit.encoded_of_record {chunk : List Byte} (h : chunk ≠ [] ∨ u.quirk = false) :
    u.encoded chunk = [.slipEnc (u.frame chunk)] :=
  if_neg fun ⟨hq, hnil⟩ => h.elim (· hnil) (by simp [hq])

theorem SlipUnit.encoded_nil_of_quirk (h : u.quirk = true) : u.encoded [] = [] := if_pos ⟨h, rfl⟩

/-! ### The decoder: one token -/

/-- Under a SOUND configuration each substitute maps back to the byte of its own class: no earlier test of 42_slip.md R94 holds. -/
theorem SlipUnit.Sound.unescape {u : SlipUnit} (hs : u.Sound) :
    (u.startEscaped = true → u.unescape u.escStart = some u.startByte)
      ∧ (u.eClass = true → u.unescape u.escEnd = some u.endByte)
      ∧ (u.xClass = true → u.unescape u.escEsc = some u.escByte) := by
  obtain ⟨hStartEnd, hStartEsc, hEndEsc⟩ := hs
  refine ⟨fun hse => if_pos ⟨hse, rfl⟩, fun he => ?_, fun hx => ?_⟩
  · have hnotStart : ¬(u.startEscaped = true ∧ u.escEnd = u.escStart) := fun ⟨hse, heq⟩ =>
      hStartEnd.elim (· ⟨hse, he⟩) (· heq.symm)
    rw [SlipUnit.unescape, if_neg hnotStart, if_pos ⟨he, rfl⟩]
  · have hnotStart : ¬(u.startEscaped = true ∧ u.escEsc = u.escStart) := fun ⟨hse, heq⟩ =>
      hStartEsc.elim (· ⟨hse, hx⟩) (· heq.symm)
    have hnotEnd : ¬(u.eClass = true ∧ u.escEsc = u.escEnd) := fun ⟨he, heq⟩ => hEndEsc.elim (· ⟨he, hx⟩) (· heq.symm)
    rw [SlipUnit.unescape, if_neg hnotStart, if_neg hnotEnd, if_pos ⟨hx, rfl⟩]

theorem SlipUnit.copied_iff {b : Byte} :
    u.copied b = true ↔ b ≠ u.endByte ∧ ¬(u.startEscaped = true ∧ b = u.startByte) := by
  cases hse : u.startEscaped <;> simp [SlipUnit.copied, hse]

/-- What the decoder copies the encoder copies too (42_slip.md R96). -/
theorem SlipUnit.escape_of_copied {b : Byte} (hesc : b ≠ u.escByte) (hb : u.copied b = true) : u.escape b = [b] := by
  obtain ⟨hend, hstart⟩ := u.copied_iff.1 hb
  rw [SlipUnit.escape, if_neg hstart, if_neg hend, if_neg hesc]

/-- The decoder reads the encoding of `b` as one token, whatever follows, and reads `y`. -/
def SlipUnit.ReadsAs (b y : Byte) : Prop :=
  ∀ rest, u.decodeBody (u.escape b ++ rest) = (u.decodeBody rest).map (y :: ·)

theorem SlipUnit.readsAs_of_pair {b x y : Byte} (h : u.escape b = [u.escByte, x]) (hy : u.unescape x = some y) :
    u.ReadsAs b y := fun rest => by
  rw [h, List.cons_append, List.singleton_append, u.decodeBody_pair, hy]

theorem SlipUnit.readsAs_of_copied {b : Byte} (hesc : b ≠ u.escByte) (hb : u.copied b = true) : u.ReadsAs b b := fun rest => by
  rw [u.escape_of_copied hesc hb, List.singleton_append, u.decodeBody_plain b rest hesc, if_pos hb]

/-- Every encoding of a byte is a token, under any configuration: when that is not SOUND, perhaps one for another byte. -/
theorem SlipUnit.exists_readsAs (b : Byte) : ∃ y, u.ReadsAs b y := by
  obtain ⟨knownStart, knownEnd, knownEsc⟩ := u.unescape_known
  have pair {x : Byte} (h : u.escape b = [u.escByte, x]) (hx : (u.unescape x).isSome) : ∃ y, u.ReadsAs b y :=
    (Option.isSome_iff_exists.1 hx).imp fun _ hy => u.readsAs_of_pair h hy
  rcases u.escape_cases b with ⟨hse, -, h⟩ | ⟨he, -, -, h⟩ | ⟨hx, -, -, -, h⟩ | ⟨hesc, hend, hstart, -⟩
  · exact pair h (knownStart hse)
  · exact pair h (knownEnd he)
  · exact pair h (knownEsc hx)
  · exact ⟨b, u.readsAs_of_copied hesc (u.copied_iff.2 ⟨hend, hstart⟩)⟩

/-- Under a SOUND configuration a byte's encoding is read as that byte (42_slip.md R98). -/
theorem SlipUnit.Sound.readsAs {u : SlipUnit} (hs : u.Sound) (b : Byte) : u.ReadsAs b b := by
  obtain ⟨backStart, backEnd, backEsc⟩ := hs.unescape
  rcases u.escape_cases b with ⟨hse, rfl, h⟩ | ⟨he, rfl, -, h⟩ | ⟨hx, rfl, -, -, h⟩ | ⟨hesc, hend, hstart, -⟩
  · exact u.readsAs_of_pair h (backStart hse)
  · exact u.readsAs_of_pair h (backEnd he)
  · exact u.readsAs_of_pair h (backEsc hx)
  · exact u.readsAs_of_copied hesc (u.copied_iff.2 ⟨hend, hstart⟩)

/-- The second byte of a pair is the substitute that the encoder writes for the byte it maps back to, SOUND or not. -/
theorem SlipUnit.escape_of_unescape {x y : Byte} (h : u.unescape x = some y) : u.escape y = [u.escByte, x] := by
  unfold SlipUnit.unescape at h
  split at h
  · rename_i hS
    obtain rfl := Option.some.inj h
    rw [SlipUnit.escape, if_pos ⟨hS.1, rfl⟩, hS.2]
  split at h
  · rename_i hE
    obtain rfl := Option.some.inj h
    have hfirst : ¬(u.startEscaped = true ∧ u.endByte = u.startByte) := fun ⟨hse, heq⟩ => by
      simp [SlipUnit.eClass, hse, heq] at hE
    rw [SlipUnit.escape, if_neg hfirst, if_pos rfl, hE.2]
  split at h
  · rename_i hX
    obtain rfl := Option.some.inj h
    have hfirst : ¬(u.startEscaped = true ∧ u.escByte = u.startByte) := fun ⟨hse, heq⟩ => by
      simp [SlipUnit.xClass, hse, heq] at hX
    have hsecond : u.escByte ≠ u.endByte := fun heq => by simp [SlipUnit.xClass, heq] at hX
    rw [SlipUnit.escape, if_neg hfirst, if_neg hsecond, if_pos rfl, hX.2]
  · cases h

/-! ### The decoder: a body -/

/-- 42_slip.md R98 on a body. -/
theorem SlipUnit.Sound.decodeBody_flatMap_escape {u : SlipUnit} (hs : u.Sound) (payload : List Byte) :
    u.decodeBody (payload.flatMap u.escape) = some payload := by
  induction payload with
  | nil => rfl
  | cons b rest ih =>
    rw [List.flatMap_cons, hs.readsAs b, ih]
    rfl

/-- A malformed rest of a body stays malformed behind the encoding of any payload. -/
theorem SlipUnit.decodeBody_flatMap_escape_append {bad : List Byte} (h : u.decodeBody bad = none) (payload : List Byte) :
    u.decodeBody (payload.flatMap u.escape ++ bad) = none := by
  induction payload with
  | nil => exact h
  | cons b rest ih =>
    obtain ⟨y, hy⟩ := u.exists_readsAs b
    rw [List.flatMap_cons, List.append_assoc, hy, ih]
    rfl

/-- A body that decodes is the encoder's body of what it decodes to, SOUND or not (42_slip.md R94). -/
theorem SlipUnit.flatMap_escape_of_decodeBody {body out : List Byte} (h : u.decodeBody body = some out) :
    out.flatMap u.escape = body := by
  induction body using SlipUnit.decodeBody.induct u generalizing out with
  | case1 => cases h; rfl
  | case2 => simp [SlipUnit.decodeBody] at h
  | case3 b hb hc =>
    obtain rfl : [b] = out := by simpa [SlipUnit.decodeBody, hb, hc] using h
    simp [u.escape_of_copied hb hc]
  | case4 b hb hc => simp [SlipUnit.decodeBody, hb, hc] at h
  | case5 x rest hx => simp [u.decodeBody_pair, hx] at h
  | case6 x rest y hx ih =>
    simp only [u.decodeBody_pair, hx] at h
    obtain ⟨more, hmore, rfl⟩ := Option.map_eq_some_iff.1 h
    rw [List.flatMap_cons, u.escape_of_unescape hx, ih hmore]
    rfl
  | case7 b x rest hb hc ih =>
    rw [u.decodeBody_plain b _ hb, if_pos hc] at h
    obtain ⟨more, hmore, rfl⟩ := Option.map_eq_some_iff.1 h
    rw [List.flatMap_cons, u.escape_of_copied hb hc, ih hmore]
    rfl
  | case8 b x rest hb hc => simp [u.decodeBody_plain b _ hb, hc] at h

/-- A body byte that is neither ESC nor copied is an error, whatever follows (42_slip.md R94). -/
theorem SlipUnit.decodeBody_not_copied {b : Byte} (hesc : b ≠ u.escByte) (hb : u.copied b = false) (rest : List Byte) :
    u.decodeBody (b :: rest) = none := by
  rw [u.decodeBody_plain b rest hesc, if_neg (by simp [hb])]

theorem SlipUnit.decodeBody_unknown_pair {x : Byte} (hstart : ¬(u.startEscaped = true ∧ x = u.escStart))
    (hend : ¬(u.eClass = true ∧ x = u.escEnd)) (hesc : ¬(u.xClass = true ∧ x = u.escEsc)) (rest : List Byte) :
    u.decodeBody (u.escByte :: x :: rest) = none := by
  have hx : u.unescape x = none := by rw [SlipUnit.unescape, if_neg hstart, if_neg hend, if_neg hesc]
  rw [u.decodeBody_pair, hx]

/-! ### The decoder: the shape of a frame -/

theorem dropByte_eq_some {b : Byte} {chunk rest : List Byte} : dropByte b chunk = some rest ↔ chunk = b :: rest := by
  cases chunk with
  | nil => simp [dropByte]
  | cons c tail => simp [dropByte]

theorem SlipUnit.dropLeader_eq_some {chunk rest : List Byte} :
    u.dropLeader chunk = some rest ↔ chunk = u.leader ++ rest := by
  unfold SlipUnit.dropLeader SlipUnit.leader
  cases u.quirk with
  | false => cases u.startEn <;> simp [dropByte_eq_some]
  | true =>
    cases hdrop : dropByte u.endByte chunk with
    | none =>
      have hne : ∀ tail, chunk ≠ u.endByte :: tail := fun tail h => by
        rw [dropByte_eq_some.2 h] at hdrop; cases hdrop
      simp [hne]
    | some tail =>
      obtain rfl := dropByte_eq_some.1 hdrop
      cases u.startEn <;> simp [dropByte_eq_some]

theorem SlipUnit.payload_nil : u.payload [] = if u.quirk then some [] else none := if_pos rfl

/-- A chunk that is not empty has a payload exactly when it is leader, body, END and its body decodes (42_slip.md R93). -/
theorem SlipUnit.payload_eq_some {chunk out : List Byte} (hne : chunk ≠ []) :
    u.payload chunk = some out
      ↔ ∃ body, chunk = u.leader ++ body ++ [u.endByte] ∧ u.decodeBody body = some out := by
  rw [SlipUnit.payload, if_neg hne]
  constructor
  · intro h
    split at h
    · cases h
    · rename_i rest hrest
      split at h
      · rename_i hlast
        refine ⟨rest.dropLast, ?_, h⟩
        rw [List.append_assoc, List.dropLast_append_getLast? _ hlast]
        exact u.dropLeader_eq_some.1 hrest
      · cases h
  · rintro ⟨body, rfl, hbody⟩
    have hdrop := u.dropLeader_eq_some.2 (List.append_assoc u.leader body [u.endByte])
    rw [hdrop]
    simpa using hbody

theorem SlipUnit.payload_framed (body : List Byte) : u.payload (u.leader ++ body ++ [u.endByte]) = u.decodeBody body := by
  refine Option.ext fun out => (u.payload_eq_some (by simp)).trans ⟨?_, fun h => ⟨body, rfl, h⟩⟩
  rintro ⟨body', heq, h⟩
  obtain rfl : body = body' := by simpa using heq
  exact h

theorem SlipUnit.Sound.payload_frame {u : SlipUnit} (hs : u.Sound) (payload : List Byte) :
    u.payload (u.frame payload) = some payload :=
  (u.payload_framed _).trans (hs.decodeBody_flatMap_escape payload)

/-- What can be seen of a frame from its ends (42_slip.md R93). -/
theorem SlipUnit.framed_ends (body : List Byte) :
    let chunk := u.leader ++ body ++ [u.endByte]
    chunk.getLast? = some u.endByte ∧ (u.quirk = true → chunk[0]? = some u.endByte)
      ∧ (u.startEn = true → chunk[u.quirk.toNat]? = some u.startByte)
      ∧ u.quirk.toNat + u.startEn.toNat + 1 ≤ chunk.length := by
  refine ⟨List.getLast?_concat .., fun hq => ?_, fun hst => ?_, ?_⟩
  · simp [SlipUnit.leader, hq]
  · cases hq : u.quirk <;> simp [SlipUnit.leader, hq, hst]
  · simp only [List.length_append, u.length_leader, List.length_singleton]
    omega

end

/-! ### The two commands, seen from outside -/

/-- The block with SLIP_LOCK set: all that SLIP_ENC and SLIP_DEC change in it but the count (42_slip.md R84). -/
abbrev Block.slipLocked (b : Block) : Block := { b with slip := { b.slip with lock := true } }

theorem exec_slipEnc_eq_ended (s : State) (chunk : List Byte) :
    exec (.slipEnc chunk) s
      = .next (s.ended s.block.slipLocked (respWord 0x00 0x00 (s.block.slip.encoded chunk).length) 0
        ((s.block.slip.encoded chunk).map OutputUnit.record)) :=
  congrArg Host.Outcome.next (s.finish_eq_ended .ok false (s.block.slip.encoded chunk) 0 s.block.slipLocked rfl)

/-- Where SLIP_ENC has an output, it sends the one record of the frame. -/
theorem exec_slipEnc_of_record {s : State} {chunk : List Byte} (h : chunk ≠ [] ∨ s.block.slip.quirk = false) :
    ∃ t, exec (.slipEnc chunk) s = .next t ∧ t.block.slip = { s.block.slip with lock := true }
      ∧ t.port.output = s.port.output ++ [bytesRecord 0x02 (s.block.slip.frame chunk)] :=
  ⟨_, exec_slipEnc_eq_ended s chunk, rfl, by rw [s.block.slip.encoded_of_record h]; rfl⟩

theorem exec_slipDec_of_payload {s : State} {chunk out : List Byte} (h : s.block.slip.payload chunk = some out) :
    exec (.slipDec chunk) s = .next (s.ended s.block.slipLocked 0x00000001 0 [bytesRecord 0x03 out]) := by
  have hword : (0x00000001 : Word) = respWord 0x00 0x00 1 := rfl
  obtain ⟨t, ht⟩ := execSlipDec_completes chunk s
  rcases execSlipDec_cases ht with ⟨out', hout, rfl⟩ | ⟨hnone, -⟩
  · obtain rfl := Option.some.inj (h.symm.trans hout)
    rw [hword]
    exact ht.trans (congrArg Host.Outcome.next (s.finish_eq_ended .ok false [.slipDec out] 0 s.block.slipLocked rfl))
  · rw [h] at hnone; cases hnone

theorem exec_slipDec_of_no_payload {s : State} {chunk : List Byte} (h : s.block.slip.payload chunk = none) :
    exec (.slipDec chunk) s = .next (s.ended s.block.slipLocked 0x06000000 0 []) := by
  obtain ⟨t, ht⟩ := execSlipDec_completes chunk s
  rcases execSlipDec_cases ht with ⟨out, hout, -⟩ | ⟨-, rfl⟩
  · rw [h] at hout; cases hout
  · exact ht.trans (congrArg Host.Outcome.next (s.finish_eq_ended .slipFormat false [] 0 s.block.slipLocked rfl))

/-! ### The obligations -/

/-- Settles O33: `encoded` is the frame that the obligation spells out from the register bits. -/
theorem slipEncEmitsTheEscapedFrame : Obligations.SlipEncEmitsTheEscapedFrame := by
  intro s chunk u q st se esc out
  have hencoded : u.encoded chunk = if q = true ∧ chunk = [] then [] else [.slipEnc out] := rfl
  rw [exec_slipEnc_eq_ended, hencoded]
  split <;> rfl

/-- Settles O34: the length of a frame, and the bound that length has. -/
theorem slipEncOutputLength : Obligations.SlipEncOutputLength := by
  intro s chunk u q st e h
  obtain ⟨t, ht, -, hout⟩ := exec_slipEnc_of_record h
  have hlen : (u.frame chunk).length = q.toNat + st.toNat + chunk.length + e + 1 := u.length_frame chunk
  refine ⟨t, u.frame chunk, ht, hout, hlen, u.length_frame_le chunk, fun hq hst he => ?_⟩
  rw [hlen, hq, hst, he, Bool.toNat_true]
  omega

/-- Settles O37: the two cases of `payload`. -/
theorem slipDecAlwaysResponds : Obligations.SlipDecAlwaysResponds := by
  intro s chunk
  cases h : s.block.slip.payload chunk with
  | some out => exact .inl ⟨out, exec_slipDec_of_payload h⟩
  | none => exact .inr (exec_slipDec_of_no_payload h)

/-- Settles O38: a chunk with a payload is leader, body, END, which shows at its ends. -/
theorem slipDecRejectsWrongShapes : Obligations.SlipDecRejectsWrongShapes := by
  intro s chunk u q st h
  refine exec_slipDec_of_no_payload ?_
  rcases h with ⟨rfl, hq⟩ | ⟨hne, hshape⟩
  · exact u.payload_nil.trans (if_neg (Bool.eq_false_iff.1 hq))
  · refine Option.eq_none_iff_forall_ne_some.2 fun out hout => ?_
    obtain ⟨body, rfl, -⟩ := (u.payload_eq_some hne).1 hout
    obtain ⟨hlast, hend, hstart, hlen⟩ := u.framed_ends body
    rcases hshape with h | ⟨hq, h⟩ | ⟨hst, h⟩ | h
    · exact h hlast
    · exact h (hend hq)
    · exact h (hstart hst)
    · exact absurd hlen (Nat.not_le.2 h)

/-- Settles O39: each of the four tokens is malformed, and stays so behind the payload's encoding. -/
theorem slipDecRejectsWrongBodies : Obligations.SlipDecRejectsWrongBodies := by
  intro s payload bad after x u h
  have hbad : u.decodeBody bad = none := by
    rcases h with ⟨rfl, hesc⟩ | ⟨rfl, hse, hesc⟩ | ⟨rfl, hstart, hend, hesc⟩ | rfl
    · exact u.decodeBody_not_copied hesc (by simp [SlipUnit.copied]) after
    · exact u.decodeBody_not_copied hesc (by simp [SlipUnit.copied, hse]) after
    · exact u.decodeBody_unknown_pair hstart hend hesc after
    · exact if_pos rfl
  refine exec_slipDec_of_no_payload ?_
  rw [List.append_assoc u.leader]
  exact (u.payload_framed _).trans (u.decodeBody_flatMap_escape_append hbad payload)

/-- Settles O36: the record names the payload, and a chunk with that payload is leader, its encoding, END. -/
theorem slipDecAcceptsOnlyFramesOfTheEncoder : Obligations.SlipDecAcceptsOnlyFramesOfTheEncoder := by
  intro s t chunk payload ht hout hrecord
  have hpayload : s.block.slip.payload chunk = some payload := by
    rcases execSlipDec_cases ht with ⟨out, h, rfl⟩ | ⟨-, rfl⟩
    · have hrec : bytesRecord 0x03 out = bytesRecord 0x03 payload := List.singleton_inj.1 (List.append_cancel_left hout)
      obtain rfl : out = payload := congrArg Record.body hrec
      exact h
    · simp at hout
  have hne : chunk ≠ [] := by
    rintro rfl
    rw [SlipUnit.payload_nil] at hpayload
    split at hpayload
    · rename_i hq
      cases hpayload
      simp [hq] at hrecord
    · cases hpayload
  obtain ⟨body, hchunk, hbody⟩ := (s.block.slip.payload_eq_some hne).1 hpayload
  have hframe : s.block.slip.frame payload = chunk := by
    rw [SlipUnit.frame, s.block.slip.flatMap_escape_of_decodeBody hbody, hchunk]
  obtain ⟨t', ht', -, hout'⟩ := exec_slipEnc_of_record hrecord
  exact ⟨t', ht', hframe ▸ hout'⟩

/-- Settles O35: SLIP_LOCK, which SLIP_ENC sets, is read by neither command, so the configuration is SOUND for SLIP_DEC too. -/
theorem slipRoundTrip : Obligations.SlipRoundTrip := by
  refine ⟨fun s payload hs => ⟨fun h => ?_, fun ⟨_, hq⟩ => ?_⟩, fun s hs => ?_⟩
  · obtain ⟨t, ht, hslip, hout⟩ := exec_slipEnc_of_record h
    have hsound : t.block.slip.Sound := hslip ▸ hs
    have hframe : t.block.slip.frame payload = s.block.slip.frame payload := by rw [hslip]; rfl
    have hback := hsound.payload_frame payload
    exact ⟨_, t, _, ht, hout, exec_slipDec_of_payload (hframe ▸ hback), rfl⟩
  · have hback : ({ s.block.slip with lock := true } : SlipUnit).payload [] = some [] :=
      (SlipUnit.payload_nil _).trans (if_pos hq)
    refine ⟨_, _, exec_slipEnc_eq_ended s [], ?_, exec_slipDec_of_payload hback, rfl⟩
    rw [s.block.slip.encoded_nil_of_quirk hq]
    exact List.append_nil _
  · have hC0 : s.block.slip.encoded [0xC0] = [.slipEnc [0xDB, 0xDC, 0xC0]] := by rw [hs]; decide
    have hDB : s.block.slip.encoded [0xDB] = [.slipEnc [0xDB, 0xDC, 0xC0]] := by rw [hs]; decide
    have hback : s.block.slip.payload [0xDB, 0xDC, 0xC0] = some [0xC0] := by rw [hs]; decide
    exact ⟨_, _, _, exec_slipEnc_eq_ended s [0xC0], by rw [hC0]; rfl, exec_slipEnc_eq_ended s [0xDB], by rw [hDB]; rfl,
      exec_slipDec_of_payload hback, rfl⟩

end Sys2Proof.Machine
end

section
/-! SP_FEED against the source's chunk-level transitions, the faults it can raise, and the two ends of a stream
(43_spacepacket.md R102 to R116). Each of the two descriptions of SP_FEED is told by one equation per case of the unit's state and
of what the chunk completes, so they agree by induction on the transitions; that a chunk can be split anywhere is then a fact about
the loop over bytes. -/

namespace Sys2Proof.Machine

/-! ### The declared data length -/

/-- Settles O43: a header without an exception has the default length. -/
theorem defaultDataLengthRule : Obligations.DefaultDataLengthRule := by
  intro p h hp
  have hdefault : spDlFn p h = spDlDefault h := by simp [spDlFn, hp]
  have hfield : bigEndian [h.b4, h.b5] = h.b4.toNat * 256 + h.b5.toNat := by simp [bigEndian, Nat.mul_comm]
  rw [hdefault, toNat_spDlDefault, hfield]

/-- Two bytes and one more are at most SP_BODY_CAP (43_spacepacket.md R107). -/
theorem toNat_spDlFn_le_cap {p : Params} (hp : p.dlTable = []) (h : Header) : (spDlFn p h).toNat ≤ Config.spBodyCap := by
  have hrule := defaultDataLengthRule p h hp
  have h4 := h.b4.isLt
  have h5 := h.b5.isLt
  show _ ≤ 65536
  omega

/-! ### The chunk-level transitions, case by case -/

section
variable (p : Params) (n : Nat) {chunk : List Byte} {u : SpUnit}

theorem spChunkLevel_header_partial (hs : u.state = .awaitingHeader) (h : u.hacc.bytes.length + chunk.length < 6) :
    spChunkLevel p (n + 1) chunk u
      = ({ u with hacc := ⟨u.hacc.bytes ++ chunk, u.hacc.bytes.length + chunk.length⟩ }, [], none) := by
  simp [spChunkLevel, hs, h]

theorem spChunkLevel_header_complete (hs : u.state = .awaitingHeader) (h : 6 ≤ u.hacc.bytes.length + chunk.length) :
    spChunkLevel p (n + 1) chunk u
      = (let hdr := headerOfBytes ((u.hacc.bytes ++ chunk).take 6)
         let v := u.parsed p hdr
         if (spDlFn p hdr).toNat < u.tcLen.toNat + u.ancLen.toNat then (v, [], some 0x80)
         else if Config.spBodyCap < (spDlFn p hdr).toNat then (v, [], some 0x82)
         else spChunkLevel p n ((u.hacc.bytes ++ chunk).drop 6) { v with state := .awaitingBody }) := by
  have hlong : ¬(u.hacc.bytes ++ chunk).length < 6 := by
    rw [List.length_append]
    exact Nat.not_lt.2 h
  simp only [spChunkLevel, SpUnit.parsed, hs, if_neg hlong]
  rfl

theorem spChunkLevel_body_partial (hs : u.state = .awaitingBody) (h : u.bacc.bytes.length + chunk.length < u.dl.toNat) :
    spChunkLevel p (n + 1) chunk u
      = ({ u with bacc := ⟨u.bacc.bytes ++ chunk, u.bacc.bytes.length + chunk.length⟩ }, [], none) := by
  simp [spChunkLevel, hs, h]

theorem spChunkLevel_body_complete (hs : u.state = .awaitingBody) (h : u.dl.toNat ≤ u.bacc.bytes.length + chunk.length) :
    spChunkLevel p (n + 1) chunk u
      = (let later := spChunkLevel p n ((u.bacc.bytes ++ chunk).drop u.dl.toNat) u.packetDone
         (later.1, [u.packet ((u.bacc.bytes ++ chunk).take u.dl.toNat)] ++ later.2.1, later.2.2)) := by
  have hlong : ¬(u.bacc.bytes ++ chunk).length < u.dl.toNat := by
    rw [List.length_append]
    exact Nat.not_lt.2 h
  simp only [spChunkLevel, hs, if_neg hlong]
  rfl

/-- A body of no bytes is complete before a byte of the chunk. -/
theorem spChunkLevel_body_empty (hb : u.bacc = ⟨[], 0⟩) (hd : u.dl.toNat = 0) :
    spChunkLevel p (n + 1) chunk { u with state := .awaitingBody }
      = (let later := spChunkLevel p n chunk u.packetDone
         (later.1, [u.packet []] ++ later.2.1, later.2.2)) := by
  rw [spChunkLevel_body_complete p n (u := { u with state := .awaitingBody }) rfl (show u.dl.toNat ≤ _ by omega)]
  simp only [hb, hd, List.nil_append, List.drop_zero, List.take_zero]
  rfl

end

/-! ### The loop against the transitions -/

theorem SpUnit.ready_packetDone {u : SpUnit} (hh : u.hacc = ⟨[], 0⟩) : u.packetDone.Ready := by
  have hh' : u.packetDone.hacc = ⟨[], 0⟩ := hh
  refine ⟨hh' ▸ Acc.wf_empty _, Acc.wf_empty _, .inl ⟨rfl, ?_, rfl, rfl, rfl⟩⟩
  rw [hh']
  exact Nat.zero_le _

/-- A header that passes R107's checks and declares a body puts the unit at the start of that body. -/
theorem SpUnit.ready_parsedBody {p : Params} {h : Header} {u : SpUnit} (hb : u.bacc = ⟨[], 0⟩)
    (hsec : u.secLen ≤ (spDlFn p h).toNat) (hcap : (spDlFn p h).toNat ≤ Config.spBodyCap)
    (hpos : 0 < (spDlFn p h).toNat) : SpUnit.Ready { u.parsed p h with state := .awaitingBody } := by
  have hb' : (u.parsed p h).bacc = ⟨[], 0⟩ := hb
  refine ⟨Acc.wf_empty _, hb' ▸ Acc.wf_empty _, .inr ⟨rfl, rfl, rfl, hsec, hcap, ?_⟩⟩
  simp only [hb']
  exact hpos

/-- A run as the chunk-level transitions tell it: the unit, the packets, and the CODE of the fault that ended it. A refused run has
no such ending. -/
def SpRun.ending : SpRun → Option (SpUnit × List OutputUnit × Option Byte)
  | .running u packets => some (u, packets, none)
  | .faulted u packets code => some (u, packets, some code.value)
  | .refused _ => none

theorem SpRun.ending_after {r : SpRun} {e : SpUnit × List OutputUnit × Option Byte} (hr : r.ending = some e)
    (first : List OutputUnit) : (r.after first).ending = some (e.1, first ++ e.2.1, e.2.2) := by
  cases r <;> cases hr <;> rfl

/-- The transitions with this fuel, where it is enough for the chunk, end as the loop over bytes does, from any state inside a
stream. Of the fuel, a header and the body after it take two, and together they take a byte of the chunk at least. -/
def LoopEndsAsChunkLevel (p : Params) (fuel : Nat) : Prop :=
  ∀ (chunk : List Byte) (u : SpUnit), u.Ready → 2 * chunk.length + 1 ≤ fuel →
    (SpUnit.pushBytes p chunk u).ending = some (spChunkLevel p fuel chunk u)

section
variable {p : Params} {n : Nat} {chunk : List Byte} {u : SpUnit}

/-- A whole header: a fault, a packet with no body at once, or the start of the body. -/
theorem SpUnit.pushBytes_ending_header_complete (ih : ∀ m ≤ n, LoopEndsAsChunkLevel p m)
    (hh : u.hacc.cursor = u.hacc.bytes.length) (hs : u.state = .awaitingHeader) (hb : u.bacc = ⟨[], 0⟩)
    (h5 : u.hacc.bytes.length ≤ 5) (h6 : 6 ≤ u.hacc.bytes.length + chunk.length) (hfuel : 2 * chunk.length ≤ n) :
    (SpUnit.pushBytes p chunk u).ending = some (spChunkLevel p (n + 1) chunk u) := by
  have hrest : ((u.hacc.bytes ++ chunk).drop 6).length + 1 ≤ chunk.length := by
    rw [List.length_drop, List.length_append]
    omega
  rw [SpUnit.pushBytes_header_complete p chunk u hh hs hb h5 h6, spChunkLevel_header_complete p n hs h6]
  simp only
  split
  · rfl
  rename_i hsec
  split
  · rfl
  rename_i hcap
  split
  · rename_i hzero
    obtain ⟨m, rfl⟩ : ∃ m, n = m + 1 := ⟨n - 1, by omega⟩
    rw [spChunkLevel_body_empty p m (u := u.parsed p _) hb hzero]
    exact SpRun.ending_after (ih m (Nat.le_succ m) _ _ (SpUnit.ready_packetDone rfl) (by omega)) _
  · rename_i hpos
    exact ih n (Nat.le_refl n) _ _
      (SpUnit.ready_parsedBody hb (Nat.le_of_not_lt hsec) (Nat.le_of_not_lt hcap) (Nat.pos_of_ne_zero hpos)) (by omega)

/-- A whole body: its packet, and the next header. -/
theorem SpUnit.pushBytes_ending_body_complete (ih : LoopEndsAsChunkLevel p n) (hh : u.hacc.Wf Config.spHdrLen)
    (hw : u.bacc.Wf Config.spBodyCap) (hb : u.InBody) (hl : u.dl.toNat ≤ u.bacc.bytes.length + chunk.length)
    (hfuel : 2 * chunk.length ≤ n) :
    (SpUnit.pushBytes p chunk u).ending = some (spChunkLevel p (n + 1) chunk u) := by
  have hb' := hb
  obtain ⟨hs, hhe, -, -, -, hlt⟩ := hb'
  have hrest : ((u.bacc.bytes ++ chunk).drop u.dl.toNat).length + 1 ≤ chunk.length := by
    rw [List.length_drop, List.length_append]
    omega
  rw [SpUnit.pushBytes_body_complete p chunk u hw hb hl, spChunkLevel_body_complete p n hs hl]
  exact SpRun.ending_after (ih _ _ (SpUnit.ready_packetDone (Acc.eq_empty_of_wf hh hhe)) (by omega)) _

end

/-- The transitions of 43_spacepacket.md R112 end as the loop over bytes does. -/
theorem loopEndsAsChunkLevel (p : Params) (fuel : Nat) : LoopEndsAsChunkLevel p fuel := by
  induction fuel using Nat.strong_induction_on with
  | _ fuel ih =>
    intro chunk u hu hfuel
    obtain ⟨n, rfl⟩ : ∃ n, fuel = n + 1 := ⟨fuel - 1, by omega⟩
    have hfuel := Nat.le_of_succ_le_succ hfuel
    obtain ⟨hh, hb, ⟨hs, h5, hbe, -, -⟩ | hbody⟩ := hu
    · by_cases h6 : u.hacc.bytes.length + chunk.length < 6
      · rw [SpUnit.pushBytes_header_partial p chunk u hh.1 hs h6, spChunkLevel_header_partial p n hs h6]
        rfl
      · exact SpUnit.pushBytes_ending_header_complete (fun m hm => ih m (Nat.lt_succ_of_le hm)) hh.1 hs
          (Acc.eq_empty_of_wf hb hbe) h5 (Nat.le_of_not_lt h6) hfuel
    · by_cases hl : u.bacc.bytes.length + chunk.length < u.dl.toNat
      · rw [SpUnit.pushBytes_body_partial p chunk u hb hbody hl, spChunkLevel_body_partial p n hbody.1 hl]
        rfl
      · exact SpUnit.pushBytes_ending_body_complete (ih n (Nat.lt_succ_self n)) hh hb hbody (Nat.le_of_not_lt hl) hfuel

/-! ### SP_FEED seen from outside -/

/-- SP_FEED that a fault stops (60_exceptions.md R125). -/
theorem execSpFeed_of_faulted {chunk : List Byte} {s : State} {u : SpUnit} {packets : List OutputUnit} {code : Code}
    (hf : s.block.sp.fault = false)
    (hu : SpUnit.pushBytes s.port.params chunk { s.block.sp with lock := true } = .faulted u packets code) :
    execSpFeed chunk s
      = .next (s.ended { s.block with sp := { u with fault := true, err := code.value } }
          (respWord code.value 0x00 packets.length) 0 (packets.map OutputUnit.record)) := by
  rw [execSpFeed_eq hf, hu]
  exact congrArg Host.Outcome.next (State.raiseFault_eq_ended s code packets u)

/-- SP_FEED while SP_FAULT = 1 is refused (60_exceptions.md R124). -/
theorem execSpFeed_of_fault {s : State} (chunk : List Byte) (hf : s.block.sp.fault = true) :
    execSpFeed chunk s = .next (s.refuse .faulted) := if_pos hf

/-- Settles O40: the loop's run is neither refused nor ended otherwise than the transitions say. -/
theorem spFeedEqualsChunkLevelTransitions : Obligations.SpFeedEqualsChunkLevelTransitions := by
  intro s chunk hs hf r
  obtain ⟨-, hsp⟩ := hs
  have hending : (SpUnit.pushBytes s.port.params chunk { s.block.sp with lock := true }).ending = some r :=
    loopEndsAsChunkLevel s.port.params _ chunk _ (SpUnit.ready_of_inv hsp hf) (Nat.le_succ _)
  clear_value r
  cases hrun : SpUnit.pushBytes s.port.params chunk { s.block.sp with lock := true } with
  | running u packets =>
    rw [hrun] at hending
    cases hending
    exact execSpFeed_of_running hf hrun
  | faulted u packets code =>
    rw [hrun] at hending
    cases hending
    exact execSpFeed_of_faulted hf hrun
  | refused reason =>
    rw [hrun] at hending
    cases hending

/-- Settles O41: while SP_FAULT = 0 the loop over the second chunk starts at the unit the first left; once a fault has stopped the
first, the second is refused, as the loop over both would have stopped there. -/
theorem spFeedSplitsAnywhere : Obligations.SpFeedSplitsAnywhere := by
  intro s first second hs
  obtain ⟨-, hsp⟩ := hs
  cases hf : s.block.sp.fault with
  | true =>
    exact ⟨_, _, _, execSpFeed_of_fault first hf, execSpFeed_of_fault second hf, execSpFeed_of_fault (first ++ second) hf,
      rfl, by simp only [State.refuse_output]⟩
  | false =>
    have hready := SpUnit.ready_of_inv hsp hf
    have hsettled := SpUnit.pushBytes_settled s.port.params first hready
    have hboth := SpUnit.pushBytes_append s.port.params first second { s.block.sp with lock := true }
    cases hfirst : SpUnit.pushBytes s.port.params first { s.block.sp with lock := true } with
    | refused reason =>
      rw [hfirst] at hsettled
      exact hsettled.elim
    | faulted u packets code =>
      rw [hfirst] at hboth
      exact ⟨_, _, _, execSpFeed_of_faulted hf hfirst, execSpFeed_of_fault second rfl, execSpFeed_of_faulted hf hboth,
        rfl, State.refuse_output _ _⟩
    | running u packets =>
      obtain ⟨-, -, hlock, hfault, -⟩ := SpUnit.sameControl_of_running hfirst
      have hrelock : ({ u with lock := true } : SpUnit) = u := by
        rw [← show u.lock = true from hlock]
      have hf' : u.fault = false := hfault.trans hf
      have hsettled' := SpUnit.pushBytes_settled s.port.params second (SpUnit.ready_of_running hready hfirst)
      rw [hfirst] at hboth
      cases hsecond : SpUnit.pushBytes s.port.params second u with
      | refused reason =>
        rw [hsecond] at hsettled'
        exact hsettled'.elim
      | running v more =>
        simp only [hsecond, SpRun.after] at hboth
        rw [← hrelock] at hsecond
        exact ⟨_, _, _, execSpFeed_of_running hf hfirst, execSpFeed_of_running hf' hsecond, execSpFeed_of_running hf hboth,
          rfl, by simp⟩
      | faulted v more code =>
        simp only [hsecond, SpRun.after] at hboth
        rw [← hrelock] at hsecond
        exact ⟨_, _, _, execSpFeed_of_running hf hfirst, execSpFeed_of_faulted hf' hsecond, execSpFeed_of_faulted hf hboth,
          rfl, by simp⟩

/-- Settles O44. -/
theorem spPartialHeaderIsKept : Obligations.SpPartialHeaderIsKept := by
  intro s chunk hs hf hstate hlen
  obtain ⟨-, hhacc, -⟩ := hs
  obtain ⟨hcursor, -⟩ := hhacc
  exact execSpFeed_of_running hf
    (SpUnit.pushBytes_header_partial s.port.params chunk { s.block.sp with lock := true } hcursor hstate hlen)

/-! ### The header faults -/

/-- An idle unit that parses a header differs from before in SP_HDR, SP_HDR_VALID and SP_DL only (43_spacepacket.md R107). -/
theorem SpUnit.Idle.parsed_eq {u : SpUnit} (hu : u.Idle) (p : Params) (h : Header) :
    u.parsed p h = { u with hdr := h, hdrValid := true, dl := spDlFn p h } := by
  rw [SpUnit.parsed, ← hu.hacc]

/-- SP_FEED's loop from an idle unit over a header and what follows it. -/
theorem SpUnit.Idle.pushBytes_header {u : SpUnit} (hu : u.Idle) (p : Params) (h : Header) (rest : List Byte) :
    SpUnit.pushBytes p (headerBytes h ++ rest) u
      = (let v := u.parsed p h
         if (spDlFn p h).toNat < u.tcLen.toNat + u.ancLen.toNat then .faulted v [] .spSecHdr
         else if Config.spBodyCap < (spDlFn p h).toNat then .faulted v [] .spCap
         else if (spDlFn p h).toNat = 0 then (SpUnit.pushBytes p rest v.packetDone).after [v.packet []]
         else SpUnit.pushBytes p rest { v with state := .awaitingBody }) := by
  have hcut : headerOfBytes ((u.hacc.bytes ++ (headerBytes h ++ rest)).take 6) = h
      ∧ (u.hacc.bytes ++ (headerBytes h ++ rest)).drop 6 = rest := by
    rw [hu.hacc]
    exact ⟨rfl, rfl⟩
  rw [SpUnit.pushBytes_header_complete p _ u (by rw [hu.hacc]; rfl) hu.state hu.bacc (by simp [hu.hacc])
    (by simp [hu.hacc, headerBytes])]
  simp only [hcut]

/-- Settles O45: SP is idle, so the chunk's first six bytes are the header. -/
theorem spHeaderFaults : Obligations.SpHeaderFaults := by
  intro s h dropped hs hf hstate hheld dl sec chunk
  obtain ⟨-, hsp⟩ := hs
  have hidle := SpUnit.idle_of_inv hsp hf hstate hheld
  have hrun := hidle.pushBytes_header s.port.params h dropped
  rw [hidle.parsed_eq] at hrun
  refine ⟨fun hsec => ?_, fun hsec hcap => ?_⟩
  · exact execSpFeed_of_faulted hf (hrun.trans (if_pos hsec))
  · exact execSpFeed_of_faulted hf (hrun.trans ((if_neg (Nat.not_lt.2 hsec)).trans (if_pos hcap)))

/-! ### F_SP_CAP -/

/-- A run that F_SP_CAP has not ended. -/
def SpRun.NotCapped : SpRun → Prop
  | .running _ _ => True
  | .faulted _ _ code => code ≠ .spCap
  | .refused _ => True

theorem SpRun.NotCapped.after {r : SpRun} (hr : r.NotCapped) (first : List OutputUnit) : (r.after first).NotCapped := by
  cases r <;> exact hr

theorem SpUnit.completePacket_notCapped (u : SpUnit) : u.completePacket.NotCapped := by
  unfold SpUnit.completePacket
  repeat' split
  · trivial
  · trivial
  · exact nofun

theorem SpUnit.parseHeader_notCapped {p : Params} (hp : p.dlTable = []) (u : SpUnit) : (u.parseHeader p).NotCapped := by
  unfold SpUnit.parseHeader
  split
  · trivial
  · simp only
    split
    · exact nofun
    split
    · rename_i hcap
      exact absurd (toNat_spDlFn_le_cap hp _) (Nat.not_le.2 hcap)
    split
    · exact SpUnit.completePacket_notCapped _
    · trivial

theorem SpUnit.pushByte_notCapped {p : Params} (hp : p.dlTable = []) (b : Byte) (u : SpUnit) :
    (u.pushByte p b).NotCapped := by
  unfold SpUnit.pushByte
  simp only
  repeat' split
  · trivial
  · exact SpUnit.parseHeader_notCapped hp _
  · trivial
  · trivial
  · exact SpUnit.completePacket_notCapped _
  · trivial

/-- With the default SP_DL_FN the loop never ends with F_SP_CAP, whatever state the unit is in. -/
theorem SpUnit.pushBytes_notCapped {p : Params} (hp : p.dlTable = []) (chunk : List Byte) (u : SpUnit) :
    (SpUnit.pushBytes p chunk u).NotCapped := by
  induction chunk generalizing u with
  | nil => trivial
  | cons b rest ih =>
    have hb := SpUnit.pushByte_notCapped hp b u
    simp only [SpUnit.pushBytes]
    cases hv : u.pushByte p b with
    | running v packets => exact (ih v).after packets
    | faulted v packets code =>
      rw [hv] at hb
      exact hb
    | refused r => trivial

/-- A command leaves SP_ERR as it was, or writes into it the code of the fault that stopped SP_FEED's loop (60_exceptions.md R125). -/
theorem Leaves.spErr {s : State} {i : Instr} {desync : Bool} {b : Block} (h : Leaves s i desync b) :
    b.sp.err = s.block.sp.err
      ∨ ∃ chunk u packets code,
          SpUnit.pushBytes s.port.params chunk { s.block.sp with lock := true } = .faulted u packets code
            ∧ b.sp.err = code.value := by
  cases h with
  | wrote reg data r hlock =>
    rw [Reg.write_sp]
    exact .inl rfl
  | spFed chunk u packets hf hu =>
    obtain ⟨-, -, -, -, herr⟩ := SpUnit.sameControl_of_running hu
    exact .inl herr
  | spStopped chunk u packets code hf hu => exact .inr ⟨chunk, u, packets, code, hu, rfl⟩
  | _ => exact .inl rfl

theorem Code.value_ne_cap {code : Code} (h : code ≠ .spCap) : code.value ≠ 0x82 := by
  cases code with
  | spCap => exact absurd rfl h
  | _ => decide

/-- Settles O46. -/
theorem defaultDataLengthNeverExceedsTheCapacity : Obligations.DefaultDataLengthNeverExceedsTheCapacity := by
  intro i s t hp herr h
  rcases exec_cases h with ⟨-, rfl⟩ | ⟨-, code, desync, units, rdata, b, hb, rfl⟩
  · show Block.reset.sp.err ≠ 0x82
    decide
  · show b.sp.err ≠ 0x82
    rcases hb.spErr with hkept | ⟨chunk, u, packets, cause, hu, hset⟩
    · rwa [hkept]
    · have hcause := SpUnit.pushBytes_notCapped hp chunk { s.block.sp with lock := true }
      rw [hu] at hcause
      rw [hset]
      exact Code.value_ne_cap hcause

/-! ### F_SP_NOHDR -/

/-- `t` has given one response more than `s`, and a fault's code in it (0x80 and above) is in SP_ERR too (60_exceptions.md R125). -/
def RecordsItsFault (s t : State) : Prop :=
  ∃ (code : Code) (desync : Bool) (nout : Nat) (rdata : Word),
    t.port.responses = s.port.responses ++ [respond code desync nout rdata]
      ∧ (0x80 ≤ code.value → t.block.sp.err = code.value)

/-- A command that ends with a code that is no fault's has no fault to record. -/
theorem State.finish_recordsItsFault {code : Code} (hcode : ¬0x80 ≤ code.value) (s : State) (desync : Bool)
    (units : List OutputUnit) (rdata : Word) (b : Block) : RecordsItsFault s (s.finish code desync units rdata b) :=
  ⟨code, desync, units.length, rdata, rfl, fun h => absurd h hcode⟩

/-- Only the SP fault answers with a fault's code, and it writes the code into SP_ERR. -/
theorem exec_recordsItsFault {i : Instr} {s t : State} (h : exec i s = .next t) : RecordsItsFault s t := by
  cases i with
  | nop => cases h; exact State.finish_recordsItsFault (by decide) ..
  | reset => cases h; exact ⟨_, _, _, _, rfl, fun hcode => absurd hcode (by decide)⟩
  | rdreg reg =>
    rcases execRdreg_cases h with ⟨-, rfl⟩ | ⟨r, -, rfl⟩ <;> exact State.finish_recordsItsFault (by decide) ..
  | wrreg reg data =>
    rcases execWrreg_cases h with ⟨code, rfl, hcode⟩ | ⟨r, -, -, -, -, rfl⟩
    · refine State.finish_recordsItsFault ?_ ..
      rcases hcode with rfl | rfl | rfl | rfl <;> decide
    · exact State.finish_recordsItsFault (by decide) ..
  | ccFeed chunk =>
    obtain ⟨u, frames, -, rfl⟩ := execCcFeed_cases h
    exact State.finish_recordsItsFault (by decide) ..
  | ccDiscard => cases h; exact State.finish_recordsItsFault (by decide) ..
  | slipEnc chunk => cases h; exact State.finish_recordsItsFault (by decide) ..
  | slipDec chunk =>
    rcases execSlipDec_cases h with ⟨out, -, rfl⟩ | ⟨-, rfl⟩ <;> exact State.finish_recordsItsFault (by decide) ..
  | spFeed chunk =>
    rcases execSpFeed_cases h with ⟨-, rfl⟩ | ⟨-, u, packets, -, rfl⟩ | ⟨-, u, packets, code, -, rfl⟩
    · exact State.finish_recordsItsFault (by decide) ..
    · exact State.finish_recordsItsFault (by decide) ..
    · exact ⟨_, _, _, _, rfl, fun _ => rfl⟩
  | spFlush =>
    rcases execSpFlush_cases h with ⟨-, rfl⟩ | ⟨-, rfl⟩ <;> exact State.finish_recordsItsFault (by decide) ..
  | spDiscard =>
    rcases execSpDiscard_cases h with ⟨-, rfl⟩ | ⟨-, rfl⟩ <;> exact State.finish_recordsItsFault (by decide) ..

/-- Between commands SP_ERR is 0 or the code of one of the two header faults (60_exceptions.md R126). -/
theorem SpUnit.err_ne_noHdr {u : SpUnit} (hu : u.Inv) : u.err ≠ 0x81 := by
  obtain ⟨-, -, hok, hfault, -⟩ := hu
  cases hf : u.fault with
  | false =>
    obtain ⟨herr, -⟩ := hok hf
    rw [herr]
    decide
  | true =>
    obtain ⟨-, -, -, -, -, ⟨herr, -⟩ | ⟨herr, -⟩⟩ := hfault hf <;> rw [herr] <;> decide

/-- The one response that a step from `s` has added, if any, is not F_SP_NOHDR. -/
theorem RecordsItsFault.code_ne_noHdr {s t : State} (h : RecordsItsFault s t) (ht : t.block.sp.err ≠ 0x81) {r : Response}
    (hr : t.port.responses = s.port.responses ++ [r]) : r.resp0.extractLsb' 24 8 ≠ 0x81 := by
  obtain ⟨code, desync, nout, rdata, hresp, hrecorded⟩ := h
  obtain rfl : respond code desync nout rdata = r := by simpa [hresp] using hr
  obtain ⟨-, -, hcode⟩ := respond_fields code desync nout rdata
  rw [hcode]
  intro hvalue
  exact ht ((hrecorded (by rw [hvalue]; decide)).trans hvalue)

/-- Settles O47: a step keeps the invariant, in which SP_ERR is never 0x81, and a fault it responds with is in SP_ERR. -/
theorem noPacketWithoutAHeader : Obligations.NoPacketWithoutAHeader := by
  intro s t hs h
  obtain ⟨-, hsp⟩ := stepKeepsInvariant s t hs h
  have herr := SpUnit.err_ne_noHdr hsp
  refine ⟨herr, fun r hr => ?_⟩
  rcases step_cases h with rfl | ⟨rest, rfl⟩ | ⟨now, rest, rfl⟩ | ⟨i, now, rest, hexec⟩
  · simp at hr
  · simp at hr
  · have hrefused : RecordsItsFault (s.accept now rest) ((s.accept now rest).refuse .illegal) :=
      State.finish_recordsItsFault (by decide) ..
    exact hrefused.code_ne_noHdr herr hr
  · exact (exec_recordsItsFault hexec).code_ne_noHdr herr hr

/-! ### The end of a stream -/

/-- Settles O51. -/
theorem spFlushEmitsTheResidue : Obligations.SpFlushEmitsTheResidue := by
  intro s hf residue sends
  have hflush : execSpFlush s = .next (s.finish .ok false (s.block.sp.residue s.port.params.flushEmpty) 0
      { s.block with sp := s.block.sp.endStream }) := if_neg (by simp [hf])
  refine hflush.trans (congrArg Host.Outcome.next ?_)
  rw [State.finish_eq_ended _ _ _ _ _ _ (by rfl)]
  by_cases hsends : sends
  · have hunits : s.block.sp.residue s.port.params.flushEmpty = [.spResidue residue] := if_pos hsends
    have hresp : respWord 0x00 0x00 1 = 0x00000001 := by decide
    rw [hunits, if_pos hsends, if_pos hsends, ← hresp]
    rfl
  · have hunits : s.block.sp.residue s.port.params.flushEmpty = [] := if_neg hsends
    rw [hunits, if_neg hsends, if_neg hsends]
    rfl

/-- Settles O52. -/
theorem spDiscardDropsTheResidue : Obligations.SpDiscardDropsTheResidue := by
  intro s hf
  have hdiscard : execSpDiscard s = .next (s.finish .ok false [] 0 { s.block with sp := s.block.sp.endStream }) :=
    if_neg (by simp [hf])
  exact hdiscard.trans (congrArg Host.Outcome.next (State.finish_eq_ended _ _ _ _ _ _ rfl))

end Sys2Proof.Machine
end

section
/-! The block control commands seen from outside (44_control.md R117 to R121). WRREG is told by one equation at each implemented
register; its four endings, in the order of R120, follow from it, and the registers with one behaviour are taken together. -/

namespace Sys2Proof.Machine

/-! ### NOP and RESET -/

/-- Settles O23. -/
theorem nopOnlyCounts : Obligations.NopOnlyCounts := fun s =>
  congrArg Host.Outcome.next (State.finish_eq_ended s .ok false [] 0 s.block rfl)

/-- A report of success with no record and no data appends the response whose words are 0, and nothing else. -/
theorem State.report_ok_nil (s : State) :
    s.report .ok false [] 0 = { s with port := { s.port with responses := s.port.responses ++ [⟨0, 0⟩] } } := by
  have hok : respond .ok false 0 0 = ⟨0, 0⟩ := by decide
  simp only [State.report, List.length_nil, List.map_nil, List.append_nil, hok]

/-- Settles O24: RESET reports its success from the block just reset. -/
theorem resetCommandResetsTheBlock : Obligations.ResetCommandResetsTheBlock := fun s =>
  congrArg Host.Outcome.next s.resetBlock.report_ok_nil

/-! ### WRREG at an implemented register -/

section
variable {s : State} {r : Reg} {data : Half}

/-- The checks of 44_control.md R120 that an implemented register leaves, in order, then the write. -/
theorem exec_wrreg_addr (s : State) (r : Reg) (data : Half) :
    exec (.wrreg r.addr data) s
      = .next (if r.readOnly then s.refuse .readOnly
          else if r.locked s.block then s.refuse .locked
          else if r.fits data then s.finish .ok false [] 0 (r.write data s.block)
          else s.refuse .range) := by
  show execWrreg r.addr data s = _
  rw [execWrreg, Reg.ofAddr_addr]
  simp only [apply_ite Host.Outcome.next]

theorem exec_wrreg_readOnly (hro : r.readOnly = true) :
    exec (.wrreg r.addr data) s = .next (s.ended s.block 0x03000000 0 []) := by
  rw [exec_wrreg_addr, if_pos hro]
  exact congrArg Host.Outcome.next (s.refuse_eq_ended .readOnly)

/-- The lock check comes before the range check, so the value does not matter. -/
theorem exec_wrreg_locked (hrw : r.readOnly = false) (hlock : r.locked s.block = true) :
    exec (.wrreg r.addr data) s = .next (s.ended s.block 0x04000000 0 []) := by
  rw [exec_wrreg_addr, if_neg (by simp [hrw]), if_pos hlock]
  exact congrArg Host.Outcome.next (s.refuse_eq_ended .locked)

theorem exec_wrreg_range (hrw : r.readOnly = false) (hlock : r.locked s.block = false)
    (hwide : 2 ^ r.dataBits ≤ data.toNat) :
    exec (.wrreg r.addr data) s = .next (s.ended s.block 0x05000000 0 []) := by
  rw [exec_wrreg_addr, if_neg (by simp [hrw]), if_neg (by simp [hlock]), if_neg (by simp [Reg.fits, hwide])]
  exact congrArg Host.Outcome.next (s.refuse_eq_ended .range)

theorem exec_wrreg_stores (r : Reg) (hrw : r.readOnly = false) (hlock : r.locked s.block = false)
    (hfits : data.toNat < 2 ^ r.dataBits) :
    exec (.wrreg r.addr data) s = .next (s.ended (r.write data s.block) 0 0 []) := by
  rw [exec_wrreg_addr, if_neg (by simp [hrw]), if_neg (by simp [hlock]), if_pos (by simp [Reg.fits, hfits])]
  exact congrArg Host.Outcome.next (State.finish_eq_ended _ _ _ _ _ _ (r.write_cmdCount data s.block))

end

/-! ### Registers with one behaviour -/

/-- The RO rows of 10_state.md R26. -/
def Reg.readOnlyRows : List Reg :=
  [.status, .spErr, .cmdCount, .ccCount, .ccLastTime, .ccDesyncCount, .spHdrCount, .spBodyCount, .spDl, .spHdrW0, .spHdrW1]

/-- The six SLIP bytes of 10_state.md R26. -/
def Reg.slipBytes : List Reg := [.slipStart, .slipEsc, .slipEnd, .slipEscStart, .slipEscEnd, .slipEscEsc]

theorem Reg.readOnly_iff_mem (r : Reg) : r.readOnly = true ↔ r ∈ Reg.readOnlyRows := by
  cases r <;> decide

/-- SLIP_CTRL and the six SLIP bytes are writable, under SLIP's lock. -/
theorem Reg.access_of_mem_slip {r : Reg} (hr : r ∈ Reg.slipCtrl :: Reg.slipBytes) (b : Block) :
    r.readOnly = false ∧ r.locked b = b.slip.lock := by
  revert r
  simp [Reg.slipBytes, Reg.readOnly, Reg.locked]

theorem Reg.dataBits_of_mem_slipBytes : ∀ r ∈ Reg.slipBytes, r.dataBits = 8 := by decide

/-- SP_TCLEN and SP_ANCLEN are writable, under SP's lock. -/
theorem Reg.access_of_mem_spLengths {r : Reg} (hr : r ∈ [Reg.spTcLen, Reg.spAncLen]) (b : Block) :
    r.readOnly = false ∧ r.locked b = b.sp.lock := by
  revert r
  simp [Reg.readOnly, Reg.locked]

/-! ### The statements -/

/-- Settles O28: each list of addresses is that of registers with one access and one lock. -/
theorem wrregRefusalsInOrder : Obligations.WrregRefusalsInOrder := by
  intro s reg data
  refine ⟨fun hreg => ?readOnly, fun hreg => ?locked, fun ⟨hlock, hreg⟩ => ?range⟩
  case readOnly =>
    obtain ⟨r, hr, rfl⟩ : ∃ r ∈ Reg.readOnlyRows, r.addr = reg := List.mem_map.mp hreg
    exact exec_wrreg_readOnly (r.readOnly_iff_mem.mpr hr)
  case locked =>
    rcases hreg with ⟨rfl, hlock⟩ | ⟨hreg, hlock⟩ | ⟨hreg, hlock⟩
    · exact exec_wrreg_locked (r := .ccMaxDelay) rfl hlock
    · obtain ⟨r, hr, rfl⟩ : ∃ r ∈ Reg.slipCtrl :: Reg.slipBytes, r.addr = reg := List.mem_map.mp hreg
      obtain ⟨hrw, hlocked⟩ := Reg.access_of_mem_slip hr s.block
      exact exec_wrreg_locked hrw (hlocked.trans hlock)
    · obtain ⟨r, hr, rfl⟩ : ∃ r ∈ [Reg.spTcLen, Reg.spAncLen], r.addr = reg := List.mem_map.mp hreg
      obtain ⟨hrw, hlocked⟩ := Reg.access_of_mem_spLengths hr s.block
      exact exec_wrreg_locked hrw (hlocked.trans hlock)
  case range =>
    rcases hreg with ⟨rfl, hwide⟩ | ⟨hreg, hwide⟩
    · exact exec_wrreg_range (r := .slipCtrl) rfl hlock hwide
    · obtain ⟨r, hr, rfl⟩ : ∃ r ∈ Reg.slipBytes, r.addr = reg := List.mem_map.mp hreg
      obtain ⟨hrw, hlocked⟩ := Reg.access_of_mem_slip (List.mem_cons_of_mem _ hr) s.block
      refine exec_wrreg_range hrw (hlocked.trans hlock) ?_
      rw [Reg.dataBits_of_mem_slipBytes r hr]
      exact hwide

/-- Settles O27, register by register: a value that fits is stored whole, and a 16-bit register holds every value of DATA. -/
theorem wrregStoresConfiguration : Obligations.WrregStoresConfiguration := by
  intro s data
  simp only [BitVec.ofNat_toNat]
  refine ⟨fun hlock => ?cc, fun hlock hfits => ?slipCtrl, fun hlock hfits => ?slipBytes, fun hlock => ?sp⟩
  case cc => exact exec_wrreg_stores .ccMaxDelay rfl hlock data.isLt
  case slipCtrl => exact exec_wrreg_stores .slipCtrl rfl hlock hfits
  case slipBytes =>
    exact
      ⟨exec_wrreg_stores .slipStart rfl hlock hfits,
        exec_wrreg_stores .slipEsc rfl hlock hfits,
        exec_wrreg_stores .slipEnd rfl hlock hfits,
        exec_wrreg_stores .slipEscStart rfl hlock hfits,
        exec_wrreg_stores .slipEscEnd rfl hlock hfits,
        exec_wrreg_stores .slipEscEsc rfl hlock hfits⟩
  case sp =>
    exact ⟨exec_wrreg_stores .spTcLen rfl hlock data.isLt, exec_wrreg_stores .spAncLen rfl hlock data.isLt⟩

end Sys2Proof.Machine
end

section
/-! A faulted SP seen from outside (60_exceptions.md R124, R127): each of its three commands asks for SP_FAULT before anything else,
and the refusal is the whole of its effect. -/

namespace Sys2Proof.Machine

/-- SP_FLUSH while SP_FAULT = 1 is refused, whatever residue SP holds (60_exceptions.md R124). -/
theorem execSpFlush_of_fault {s : State} (hf : s.block.sp.fault = true) : execSpFlush s = .next (s.refuse .faulted) :=
  if_pos hf

/-- SP_DISCARD while SP_FAULT = 1 is refused, so it is no way out of the fault (60_exceptions.md R124). -/
theorem execSpDiscard_of_fault {s : State} (hf : s.block.sp.fault = true) : execSpDiscard s = .next (s.refuse .faulted) :=
  if_pos hf

/-- Settles O48: the three commands end in one refusal, and `State.refuse_eq_ended` says what it does. -/
theorem faultedSpRefusesItsCommands : Obligations.FaultedSpRefusesItsCommands := by
  intro s chunk hf
  have hrefuse : s.refuse .faulted = s.ended s.block 0x07000000 0 [] := s.refuse_eq_ended .faulted
  rw [← hrefuse]
  exact ⟨execSpFeed_of_fault chunk hf, execSpFlush_of_fault hf, execSpDiscard_of_fault hf⟩

end Sys2Proof.Machine
end

section
/-! The reset input (70_reset_and_hazards.md R132, R133). A proper part of a command's bytes ends inside its word or inside its data
phase, so when the reset input comes next the block still wants a byte of the one or of the other, and the reset input cuts it. -/

namespace Sys2Proof

/-- What has come of a command that is not complete: less than its word, or its word and less than its data phase. -/
theorem properPrefix_encode {i : Instr} {bytes : List Byte} (hpre : bytes <+: encode i) (hne : bytes ≠ encode i) :
    bytes.length < 4 ∨ ∃ data, bytes = bytesOfWord (encodeWord i) ++ data ∧ data.length < i.chunk.length := by
  refine (Nat.lt_or_ge bytes.length 4).imp_right fun hword => ?_
  have hshort : bytes.length < (encode i).length := lt_of_le_of_ne hpre.length_le (mt hpre.eq_of_length hne)
  obtain ⟨data, rfl⟩ : bytesOfWord (encodeWord i) <+: bytes :=
    List.prefix_of_prefix_length_le (List.prefix_append _ _) hpre hword
  exact ⟨data, rfl, by simpa [encode] using hshort⟩

end Sys2Proof

namespace Sys2Proof.Machine

/-- The length of a word's data phase, asked of the word's bytes. -/
@[simp] theorem dataPhaseOf_bytesOfWord (w : Word) : dataPhaseOf (bytesOfWord w) = dataPhase w := by
  rw [bytesOfWord, dataPhaseOf, wordOfBytes_bytesOfWord]

/-- A reset input that comes before a word's four bytes have come is what the block takes. -/
theorem State.fetch_cut_in_word {s : State} {bytes : List Byte} {stamps : List Word} {rest : List HostEvent}
    (hstamps : stamps.length = bytes.length) (hshort : bytes.length < 4)
    (hinput : s.port.input = stamped stamps bytes ++ .resetInput :: rest) : s.fetch = .resetInput rest := by
  have hcut := takeBytes_cut 4 stamps bytes hstamps hshort s.port.now rest
  simp only [State.fetch, hinput, hcut]

/-- A reset input that comes before all the data bytes a word asks for is what the block takes. -/
theorem State.fetch_cut_in_data {s : State} {w : Word} {data : List Byte} {stamps : List Word} {rest : List HostEvent}
    (hstamps : stamps.length = data.length + 4) (hshort : data.length < dataPhase w)
    (hinput : s.port.input = stamped stamps (bytesOfWord w ++ data) ++ .resetInput :: rest) :
    s.fetch = .resetInput rest := by
  match stamps, hstamps with
  | t0 :: t1 :: t2 :: t3 :: times, hstamps =>
    have hword : takeBytes 4 s.port.now s.port.input
        = .got (bytesOfWord w) t3 (stamped times data ++ .resetInput :: rest) := by
      rw [hinput]
      rfl
    have hcut := takeBytes_cut (dataPhase w) times data (by simpa using hstamps) hshort t3 rest
    simp only [State.fetch, hword, dataPhaseOf_bytesOfWord, hcut]

/-- Settles O14: wherever the reset input cuts the command, it is what the step takes. -/
theorem resetInputAbandonsACommand : Obligations.ResetInputAbandonsACommand := by
  intro s i bytes stamps rest hi hpre hne hstamps hinput
  have hfetch : s.fetch = .resetInput rest := by
    obtain hword | ⟨data, rfl, hdata⟩ := properPrefix_encode hpre hne
    · exact State.fetch_cut_in_word hstamps hword hinput
    · rw [List.length_append, length_bytesOfWord, Nat.add_comm] at hstamps
      exact State.fetch_cut_in_data hstamps (dataPhase_encodeWord hi ▸ hdata) hinput
  rw [step, hfetch]
  rfl

end Sys2Proof.Machine
end

section
/-! The block with no whole command (60_exceptions.md R131): what has come ends inside the word or inside the data phase, and with
nothing after it the block takes nothing. -/

namespace Sys2Proof.Machine

/-- A word's four bytes are taken, with the stamp of the fourth, and leave its data bytes with their own stamps. -/
theorem takeBytes_word {w : Word} {data : List Byte} {stamps : List Word} (hstamps : stamps.length = data.length + 4)
    (time : Word) :
    takeBytes 4 time (stamped stamps (bytesOfWord w ++ data))
      = .got (bytesOfWord w) (stamps.getD 3 0) (stamped (stamps.drop 4) data) := by
  match stamps, hstamps with
  | t0 :: t1 :: t2 :: t3 :: times, _ => rfl

/-- While a word's four bytes have not all come, the block takes nothing. -/
theorem State.fetch_idle_in_word {s : State} {bytes : List Byte} {stamps : List Word}
    (hstamps : stamps.length = bytes.length) (hshort : bytes.length < 4) (hinput : s.port.input = stamped stamps bytes) :
    s.fetch = .idle := by
  have hstarved := takeBytes_short 4 stamps bytes hstamps hshort s.port.now
  simp only [State.fetch, hinput, hstarved]

/-- While the data bytes a word asks for have not all come, the block takes nothing, the word included. -/
theorem State.fetch_idle_in_data {s : State} {w : Word} {data : List Byte} {stamps : List Word}
    (hstamps : stamps.length = data.length + 4) (hshort : data.length < dataPhase w)
    (hinput : s.port.input = stamped stamps (bytesOfWord w ++ data)) : s.fetch = .idle := by
  have hrest : (stamps.drop 4).length = data.length := by rw [List.length_drop, hstamps, Nat.add_sub_cancel]
  have hstarved := takeBytes_short (dataPhase w) (stamps.drop 4) data hrest hshort (stamps.getD 3 0)
  simp only [State.fetch, hinput, takeBytes_word hstamps, dataPhaseOf_bytesOfWord, hstarved]

/-- A step with nothing to take is the identity (log 6). -/
theorem step_of_fetch_idle {s : State} (h : s.fetch = .idle) : step s = .next s := by rw [step, h]

/-- Settles O13: a proper part of a command ends inside its word or inside its data phase, and the block waits in both. -/
theorem stepWaitsForTheWholeCommand : Obligations.StepWaitsForTheWholeCommand := by
  intro s i bytes stamps hi hpre hne hstamps hinput
  refine step_of_fetch_idle ?_
  obtain hword | ⟨data, rfl, hdata⟩ := properPrefix_encode hpre hne
  · exact State.fetch_idle_in_word hstamps hword hinput
  · rw [List.length_append, length_bytesOfWord, Nat.add_comm] at hstamps
    exact State.fetch_idle_in_data hstamps (dataPhase_encodeWord hi ▸ hdata) hinput

end Sys2Proof.Machine
end

section
/-! Two facts about fixed values: the reset state (10_state.md R6, R29, R30), and five byte strings of 95_test_vectors.md. -/

namespace Sys2Proof

/-- Settles O2: both accumulator units are at their reset values, and these meet the unit invariants. -/
theorem invariantAtReset : Obligations.InvariantAtReset := Machine.Block.reset_inv

/-- What a well-formed command's bytes decode to when nothing follows them. -/
theorem decode_of_encode_eq {i : Instr} {bytes : List Byte} (hi : i.WellFormed) (h : encode i = bytes) :
    decode bytes = .ok (i, []) := by
  have hdecode := decodeInvertsEncode i [] hi
  rwa [List.append_nil, h] at hdecode

/-- Settles O9: each listed string is the encoding of its command, and `decodeInvertsEncode` reads it back. -/
theorem listedWordsDecode : Obligations.ListedWordsDecode :=
  ⟨decode_of_encode_eq (by decide) (by decide), decode_of_encode_eq (by decide) (by decide),
    decode_of_encode_eq (by decide) (by decide), decode_of_encode_eq (by decide) (by decide),
    decode_of_encode_eq (by decide) (by decide)⟩

end Sys2Proof
end
